-- ==== Sys2Proof/Word.lean ====
section
/-! DEFINITION. The widths of the machine's values (00_scope.md R7, R8): one type for each, so that a
corrected audit of a width (93_implementation_defined.md I-1) changes one definition. -/

namespace Sys2Proof

/-- One byte of a store, one byte of an instruction word (R80), one register-index operand
(`REGIDX_BITS` = 8, R7). -/
abbrev Byte := BitVec 8

/-- A register's 32-bit pattern (`XLEN` = 32, R7, R21), also the type of `REM` (`REM_BITS` = 32, R30).
Signed readings are two's complement (PRESUMED by the spec itself: G-1; log entry 8). -/
abbrev Word := BitVec 32

/-- The program counter's pattern. Its width is the parameter `PC_BITS` of R8, here as everywhere an argument
whose default is the spec's 32 (R25; log entry 7). -/
abbrev Pc (pcBits : Nat := 32) := BitVec pcBits

/-- LOAD's immediate (`IMM_BITS` = 16, R7, R83). -/
abbrev Imm16 := BitVec 16

/-- The stop-status register (R34). -/
abbrev Status := BitVec 16

/-- `s32(v)` of R9: the signed reading of a register pattern. -/
abbrev s32 (v : Word) : Int := v.toInt

/-- `u32(v)` of R9: the unsigned reading of a register pattern. -/
abbrev u32 (v : Word) : Nat := v.toNat

end Sys2Proof
end

