-- ==== Sys2Proof/Config.lean ====
section
/-! DEFINITION. What is fixed for one machine: the sizes of R7, the opcodes of R3, the operand kinds of
R81 and the named parameters of R8. The parameters' default VALUES stand in Decode.lean (the opcode
table) and Machine/Parameters.lean (the rest). -/

namespace Sys2Proof

/-- `NREGS` of R7: the number of general registers. -/
abbrev nregs : Nat := 32

/-- The 17 opcodes of R3 and the ILLEGAL decode result. -/
inductive Opcode where
  | halt | load | add | sub | mul | div | jmp | jmpf | jmpb
  | eq | neq | gt | lt | gteq | lteq | jeq | alloc | illegal
  deriving DecidableEq, Repr

/-- The 17 opcodes a byte can name, in the order of R84's table; ILLEGAL is the miss of the lookup. -/
def Opcode.defined : List Opcode :=
  [.halt, .load, .add, .sub, .mul, .div, .jmp, .jmpf, .jmpb,
   .eq, .neq, .gt, .lt, .gteq, .lteq, .jeq, .alloc]

/-- The four kinds of operand slot of R81: a register index, the two halves of the immediate, unused. -/
inductive SlotKind where
  | reg | immHigh | immLow | unused
  deriving DecidableEq, Repr

/-- A word `[b0, b1, b2, b3]` (R13, R80), by increasing offset. -/
structure InstrWord where
  b0 : Byte
  b1 : Byte
  b2 : Byte
  b3 : Byte
  deriving DecidableEq, Repr

/-- The bytes of a word, lowest offset first. -/
def InstrWord.bytes (w : InstrWord) : List Byte := [w.b0, w.b1, w.b2, w.b3]

/-- `OVERFLOW_POLICY` of R8 and R180. -/
inductive OverflowPolicy where
  | wrap | fault
  deriving DecidableEq, Repr

/-- The named parameters of R8, and by I-11 the remainder of a division with a negative operand; `PC_BITS`,
which is a width, is the argument of `State` instead. A definition that depends on one takes it as an
argument whose default is the value the spec gives, so that a claim can be stated over every value (log
entries 1 and 7). -/
structure Params where
  /-- `OPCODE_CODE` (R84, D1): the byte of each opcode. -/
  opcodeCode : Opcode → Byte
  /-- `PROG_MAX` (R37, D8): the largest program-store length. -/
  progMax : Nat
  /-- `HEAP_MAX` (R59, D16): the largest heap length. -/
  heapMax : Nat
  /-- `JEQ_NOT_TAKEN_ADVANCE` (R204, D13): bytes a not-taken JEQ advances. -/
  jeqNotTakenAdvance : Nat
  /-- `OVERFLOW_POLICY` (R180, D5). -/
  overflowPolicy : OverflowPolicy
  /-- The remainder DIV records for dividend and divisor when one of them is negative (I-11, D6). -/
  negativeRemainder : Int → Int → Int

end Sys2Proof
end

