-- ==== Sys2Proof/Syntax.lean ====
section
/-! DEFINITION. The instructions: one constructor for each row of spec/opcode_table.json. A register
operand is the whole operand byte (R23, R81): bytes 32 to 255 are encodings like any other, and running
one stops the block (R146). Unused bytes are ignored (R91), so no constructor keeps them (log entry 11). -/

namespace Sys2Proof

/-- An instruction with its shaped operands, in the slot order of R85. -/
inductive Instr where
  /-- HALT (R149). -/
  | hlt
  /-- LOAD: destination register byte and 16-bit immediate (R170). -/
  | load (d : Byte) (imm : Imm16)
  /-- ADD: left, right, destination (R181). -/
  | add (l r d : Byte)
  /-- SUB: minuend, subtrahend, destination (R182). -/
  | sub (l r d : Byte)
  /-- MUL: left, right, destination (R183). -/
  | mul (l r d : Byte)
  /-- DIV: dividend, divisor, quotient destination (R184). -/
  | div (l r d : Byte)
  /-- JMP: register holding the absolute target (R201). -/
  | jmp (r : Byte)
  /-- JMPF: register holding the forward offset (R202). -/
  | jmpf (r : Byte)
  /-- JMPB: register holding the backward offset (R203). -/
  | jmpb (r : Byte)
  /-- EQ: left, right (R221). -/
  | eq (l r : Byte)
  /-- NEQ: left, right (R222). -/
  | neq (l r : Byte)
  /-- GT: left, right (R223). -/
  | gt (l r : Byte)
  /-- LT: left, right (R224). -/
  | lt (l r : Byte)
  /-- GTEQ: left, right (R225). -/
  | gteq (l r : Byte)
  /-- LTEQ: left, right (R226). -/
  | lteq (l r : Byte)
  /-- JEQ: register holding the absolute target (R204). -/
  | jeq (r : Byte)
  /-- ALLOC: register holding the byte count (R240). -/
  | alloc (r : Byte)
  /-- ILLEGAL: the unmapped opcode byte that was decoded (R90, R150). -/
  | illegal (b0 : Byte)
  deriving DecidableEq, Repr

end Sys2Proof
end

