-- ==== Sys2Proof/Decode.lean ====
section
/-! DEFINITION. The opcode table (R84 to R88, R93 to R95), the decoder from bytes to instructions, total and
rejecting by name, and after it the encoder, both over one opcode table. `code` is the parameter
`OPCODE_CODE` of R8; its default is R84's table. -/

namespace Sys2Proof

/-! ### The opcode table -/

/-- R84's default for `OPCODE_CODE`: the byte of each opcode, ILLEGAL's canonical byte included (R87). -/
def opcodeCode : Opcode → Byte
  | .halt => 0x00 | .load => 0x01 | .add => 0x02 | .sub => 0x03 | .mul => 0x04 | .div => 0x05
  | .jmp => 0x06 | .jmpf => 0x07 | .jmpb => 0x08
  | .eq => 0x09 | .neq => 0x0A | .gt => 0x0B | .lt => 0x0C | .gteq => 0x0D | .lteq => 0x0E
  | .jeq => 0x0F | .alloc => 0x10 | .illegal => 0xFF

/-- `opcode_to_byte` of R87. -/
def opcodeToByte (op : Opcode) (code : Opcode → Byte := opcodeCode) : Byte := code op

/-- `byte_to_opcode` of R86: the opcode whose code is `b`, ILLEGAL when there is none. Total. -/
def byteToOpcode (b : Byte) (code : Opcode → Byte := opcodeCode) : Opcode :=
  (Opcode.defined.find? fun op => code op == b).getD .illegal

/-- The 16 mnemonics of R84's table, in its order; ALLOC and ILLEGAL have none (R93, R130). -/
def mnemonicTable : List (List Char × Opcode) :=
  [("hlt".toList, .halt), ("load".toList, .load), ("add".toList, .add), ("sub".toList, .sub),
   ("mul".toList, .mul), ("div".toList, .div), ("jmp".toList, .jmp), ("jmpf".toList, .jmpf),
   ("jmpb".toList, .jmpb), ("eq".toList, .eq), ("neq".toList, .neq), ("gt".toList, .gt),
   ("lt".toList, .lt), ("gteq".toList, .gteq), ("lteq".toList, .lteq), ("jeq".toList, .jeq)]

/-- `mnemonic_to_opcode` of R93: exact, case-sensitive lookup, ILLEGAL on a miss. -/
def mnemonicToOpcode (text : List Char) : Opcode :=
  ((mnemonicTable.find? fun row => row.1 == text).map Prod.snd).getD .illegal

/-- R85: the kinds of the operand slots `b1`, `b2`, `b3` of each opcode (the formats of R82). -/
def shape : Opcode → List SlotKind
  | .halt | .illegal => [.unused, .unused, .unused]
  | .load => [.reg, .immHigh, .immLow]
  | .add | .sub | .mul | .div => [.reg, .reg, .reg]
  | .eq | .neq | .gt | .lt | .gteq | .lteq => [.reg, .reg, .unused]
  | .jmp | .jmpf | .jmpb | .jeq | .alloc => [.reg, .unused, .unused]

/-- R88: the number of bytes from `s` that must lie in the program store for the opcode to execute. -/
def fetchLength : Opcode → Nat
  | .halt | .illegal => 1
  | _ => 4

/-! ### Decoding -/

/-- R83: `imm16 = b2 ++ b3`, big-endian. -/
def immediate (b2 b3 : Byte) : Imm16 := b2 ++ b3

/-- The instruction a word's opcode and operand bytes stand for; `b0` is kept for ILLEGAL's detail (R150). -/
def formInstr (op : Opcode) (b0 b1 b2 b3 : Byte) : Instr :=
  match op with
  | .halt => .hlt
  | .load => .load b1 (immediate b2 b3)
  | .add => .add b1 b2 b3
  | .sub => .sub b1 b2 b3
  | .mul => .mul b1 b2 b3
  | .div => .div b1 b2 b3
  | .jmp => .jmp b1
  | .jmpf => .jmpf b1
  | .jmpb => .jmpb b1
  | .eq => .eq b1 b2
  | .neq => .neq b1 b2
  | .gt => .gt b1 b2
  | .lt => .lt b1 b2
  | .gteq => .gteq b1 b2
  | .lteq => .lteq b1 b2
  | .jeq => .jeq b1
  | .alloc => .alloc b1
  | .illegal => .illegal b0

/-- What decoding a byte sequence gives: an instruction, or one of the two rejections. -/
inductive Decoded where
  /-- The bytes begin with this instruction. -/
  | instr (i : Instr)
  /-- There is no byte to decode; the step has completed before this can happen (R142). -/
  | noByte
  /-- The opcode `b0` needs its whole word and fewer than four bytes are there (R88, R145). -/
  | truncated (b0 : Byte)
  deriving DecidableEq, Repr

/-- R144, R145, R86: decode the instruction at the front of the bytes that lie in the program store from
`s` on. HALT and ILLEGAL look at the opcode byte alone (R88). -/
def decode (bytes : List Byte) (code : Opcode → Byte := opcodeCode) : Decoded :=
  match bytes with
  | [] => .noByte
  | b0 :: rest =>
    let op := byteToOpcode b0 code
    if fetchLength op = 1 then .instr (formInstr op b0 0 0 0)
    else match rest with
      | b1 :: b2 :: b3 :: _ => .instr (formInstr op b0 b1 b2 b3)
      | _ => .truncated b0

/-! ### Encoding -/

/-- The opcode of an instruction. -/
def opcodeOf : Instr → Opcode
  | .hlt => .halt
  | .load _ _ => .load
  | .add _ _ _ => .add
  | .sub _ _ _ => .sub
  | .mul _ _ _ => .mul
  | .div _ _ _ => .div
  | .jmp _ => .jmp
  | .jmpf _ => .jmpf
  | .jmpb _ => .jmpb
  | .eq _ _ => .eq
  | .neq _ _ => .neq
  | .gt _ _ => .gt
  | .lt _ _ => .lt
  | .gteq _ _ => .gteq
  | .lteq _ _ => .lteq
  | .jeq _ => .jeq
  | .alloc _ => .alloc
  | .illegal _ => .illegal

/-- The high byte of an immediate (R118: `v >> 8`). -/
def immHighByte (v : Imm16) : Byte := v.extractLsb' 8 8

/-- The low byte of an immediate (R118: `v & 0xFF`). -/
def immLowByte (v : Imm16) : Byte := v.extractLsb' 0 8

/-- The three operand bytes of an instruction's word, 0 in an unused slot (R82, R91). -/
def operandBytes : Instr → List Byte
  | .hlt | .illegal _ => [0, 0, 0]
  | .load d imm => [d, immHighByte imm, immLowByte imm]
  | .add l r d | .sub l r d | .mul l r d | .div l r d => [l, r, d]
  | .eq l r | .neq l r | .gt l r | .lt l r | .gteq l r | .lteq l r => [l, r, 0]
  | .jmp r | .jmpf r | .jmpb r | .jeq r | .alloc r => [r, 0, 0]

/-- The opcode byte of an instruction's word; ILLEGAL keeps the byte it was decoded from (R150). -/
def opcodeByte (i : Instr) (code : Opcode → Byte := opcodeCode) : Byte :=
  match i with
  | .illegal b0 => b0
  | i => opcodeToByte (opcodeOf i) code

/-- R80: the four bytes of an instruction's word, unused bytes 0 as the assembler writes them (R91). -/
def encode (i : Instr) (code : Opcode → Byte := opcodeCode) : List Byte :=
  opcodeByte i code :: operandBytes i

/-- The bytes of a word's operand slots that the shape marks as registers, in slot order (R85, R146). -/
def registerBytes : List SlotKind → List Byte → List Byte
  | .reg :: ks, b :: bs => b :: registerBytes ks bs
  | _ :: ks, _ :: bs => registerBytes ks bs
  | _, _ => []

/-- The register operand bytes of an instruction, read off its word by its opcode's shape (R85). -/
def regOperands (i : Instr) : List Byte := registerBytes (shape (opcodeOf i)) (operandBytes i)

/-- R146: the first register operand byte, in slot order, that names no register. -/
def firstBadRegister (i : Instr) : Option Byte := (regOperands i).find? fun b => decide (nregs ≤ b.toNat)

/-! ### The opcode table's numbering of a word -/

/-- The bytes, lowest address first, of a word numbered as opcode_table.json numbers it
(`b0<<24 | b1<<16 | b2<<8 | b3`); bits above `nbits` are 0. -/
def tableBytes (nbits w : Nat) : List Byte :=
  let v := BitVec.ofNat 32 (w % 2 ^ nbits)
  [v.extractLsb' 24 8, v.extractLsb' 16 8, v.extractLsb' 8 8, v.extractLsb' 0 8]

/-- The instruction the decoder reads from the table word `w`. -/
def decodeTableWord (nbits w : Nat) : Option Instr :=
  match decode (tableBytes nbits w) with
  | .instr i => some i
  | _ => none

end Sys2Proof
end

