-- ==== Sys2Proof/Machine/Parameters.lean ====
section
/-! DEFINITION. The values R8 gives the named parameters. -/

namespace Sys2Proof.Machine

/-- R185's default for the remainder of a division with a negative operand: `a - q * c` with `q` truncated
toward zero (D6, C7). -/
def truncatedRemainder (a c : Int) : Int := a - a.tdiv c * c

/-- R8: the value the spec takes for each parameter. -/
def params : Params where
  opcodeCode := opcodeCode
  progMax := 2 ^ 31
  heapMax := 2 ^ 31 - 1
  jeqNotTakenAdvance := 4
  overflowPolicy := .wrap
  negativeRemainder := truncatedRemainder

end Sys2Proof.Machine
end

