-- ==== Sys2Proof/Machine/State.lean ====
section
/-! DEFINITION. The machine's state as plain data (R20: "The block's whole state is one record of the elements
below. There is nothing else"), the stop causes, the reset state, and the two reason types of an outcome. -/

namespace Sys2Proof.Machine

/-- A byte store: the program store or the heap arena (R50), a byte sequence of length `len`. Offsets below
`len` that `cells` does not list hold 0; offsets at or above `len` hold no byte (log entry 4). -/
structure Memory where
  /-- The bytes other than 0, at strictly rising offsets below `len`. -/
  cells : List Host.Cell
  /-- The store's length in bytes (`L` of R37, `HEAP_LEN` of R33; log entry 5). -/
  len : Nat
  deriving DecidableEq, Repr

/-- The causes of a stop (R250), less RUNNING, which is no stop. -/
inductive Cause where
  | halted | illegalOpcode | faultTruncated | faultRegIndex | faultDivZero
  | faultDivOverflow | faultNegAlloc | faultHeapLimit | faultOverflow
  deriving DecidableEq, Repr

/-- R20: the state vector. Its argument is the parameter `PC_BITS` of R8: `State` is the state of the machine
with the spec's 32-bit `pc`, `State n` that of one with an `n`-bit `pc` (log entry 7). -/
structure State (pcBits : Nat := 32) where
  /-- `x[0..31]` (R21). -/
  regs : Vector Word nregs
  /-- `pc`: the byte offset of the next opcode byte (R25). -/
  pc : Pc pcBits
  /-- `FLAG`: set by comparisons, read by JEQ; true is 1 (R29). -/
  flag : Bool
  /-- `REM`: the remainder of the last division that completed (R30). -/
  rem : Word
  /-- `LASTW`: the register written last, 5 bits (R31; log entry 6). -/
  lastw : Fin nregs
  /-- `STATUS`: CAUSE in bits 3..0, DETAIL in bits 15..8 (R34). -/
  status : Status
  /-- The heap arena; `heap.len` is `HEAP_LEN` (R33, R57). -/
  heap : Memory
  /-- The program store; `prog.len` is `L` (R37). -/
  prog : Memory
  deriving DecidableEq, Repr

/-- R280: the reset state, for every width of `pc`. Every value is the spec's. -/
def State.resetAt (pcBits : Nat) : State pcBits where
  regs := Vector.replicate nregs 0
  pc := 0
  flag := false
  rem := 0
  lastw := 0
  status := 0
  heap := ⟨[], 0⟩
  prog := ⟨[], 0⟩

/-- R280: the reset state of the machine at the spec's `PC_BITS`. -/
def State.reset : State := State.resetAt 32

/-- Reasons for the outcome `fault`. There is none: every event of a step that ends it is a stop, whose
effect on the state the spec gives (R250, R251), so the step takes it as a next state with STATUS
written, and no access outside a store happens (R51). No definition of the model answers a fault (log
entry 2; safe: the model stops nowhere that the spec goes on). -/
inductive Fault where
  deriving DecidableEq, Repr

/-- Reasons for the outcome `refused`. -/
inductive Refusal where
  /-- An instruction without a meaning yet, raised only by an arm of `exec`; no arm raises it now.
  Safe: the model would stop where the hardware goes on. -/
  | notModelled (mnemonic : String)
  deriving DecidableEq, Repr

/-- The outcome of a step or of a meaning. -/
abbrev Outcome (pcBits : Nat := 32) := Host.Outcome (State pcBits) Fault Refusal

end Sys2Proof.Machine
end

