-- ==== Sys2Proof/Machine/Ops.lean ====
section
/-! DEFINITION. The named operations over the two byte stores, the registers and STATUS, among them
`raiseStop`, the one operation by which every exceptional or terminal event is taken (R251). There is no
return from a stop but reset (R255). -/

namespace Sys2Proof.Machine

variable {pcBits : Nat}

/-! ### Byte stores (R50) -/

/-- What an offset below a store's length reads as when no cell lists it: for the heap, the zero fill of
R57; for the program store, a choice of representation (log entry 4). -/
def Memory.unlisted : Byte := 0

/-- The byte the cells list at offset `a`. -/
def Memory.lookup : List Host.Cell → Nat → Byte
  | [], _ => Memory.unlisted
  | (k, v) :: rest, a => if k = a then v else Memory.lookup rest a

/-- The byte at offset `a`; none at or above the length, where the store has no byte (R51, R145). -/
def Memory.read (m : Memory) (a : Nat) : Option Byte :=
  if a < m.len then some (Memory.lookup m.cells a) else none

/-- The cells with the byte at `a` replaced by `b`, in canonical form: rising offsets, no cell equal to
what an unlisted offset reads as. -/
def Memory.put : List Host.Cell → Nat → Byte → List Host.Cell
  | [], a, b => if b = Memory.unlisted then [] else [(a, b)]
  | (k, v) :: rest, a, b =>
    if a < k then
      if b = Memory.unlisted then (k, v) :: rest else (a, b) :: (k, v) :: rest
    else if a = k then
      if b = Memory.unlisted then rest else (a, b) :: rest
    else (k, v) :: Memory.put rest a b

/-- Append one byte at the store's end (R162 for PROG). -/
def Memory.append (m : Memory) (b : Byte) : Memory := ⟨Memory.put m.cells m.len b, m.len + 1⟩

/-- Append bytes at the store's end, in order (R163). -/
def Memory.appendList (m : Memory) : List Byte → Memory
  | [] => m
  | b :: bs => (m.append b).appendList bs

/-- Append `n` bytes of value 0 at the store's end (`HeapGrow` of R58): the new offsets are cleared and the
length grows by `n`. -/
def Memory.appendZeros (m : Memory) (n : Nat) : Memory :=
  ⟨m.cells.filter fun c => decide (c.1 < m.len ∨ m.len + n ≤ c.1), m.len + n⟩

/-- The cells stand at strictly rising offsets from `lo` on and below `hi`, and none holds what an unlisted
offset reads as. -/
def Memory.canonical (hi : Nat) : Nat → List Host.Cell → Bool
  | _, [] => true
  | lo, (a, v) :: rest =>
    decide (lo ≤ a) && decide (a < hi) && (v != Memory.unlisted) && Memory.canonical hi (a + 1) rest

/-- The one canonical form of a store, so that equal stores are equal data. -/
def Memory.wf (m : Memory) : Bool := Memory.canonical m.len 0 m.cells

/-! ### STATUS and stops -/

/-- R250: the code of each cause, as `STATUS[3:0]` holds it. -/
def Cause.code : Cause → BitVec 4
  | .halted => 1
  | .illegalOpcode => 2
  | .faultTruncated => 3
  | .faultRegIndex => 4
  | .faultDivZero => 5
  | .faultDivOverflow => 6
  | .faultNegAlloc => 7
  | .faultHeapLimit => 8
  | .faultOverflow => 9

/-- R34: the STATUS word of a stop: DETAIL in bits 15..8, 0 in the reserved bits 7..4, CAUSE in bits 3..0. -/
def stopStatus (c : Cause) (detail : Byte) : Status := detail ++ (0 : BitVec 4) ++ c.code

/-- `STATUS.CAUSE` (R34). -/
def State.cause (s : State pcBits) : BitVec 4 := s.status.extractLsb' 0 4

/-- `STATUS[7:4]`, reserved (R34). -/
def State.statusReserved (s : State pcBits) : BitVec 4 := s.status.extractLsb' 4 4

/-- `STATUS.DETAIL` (R34). -/
def State.detail (s : State pcBits) : Byte := s.status.extractLsb' 8 8

/-- R34, R35: the block is stopped exactly when CAUSE is not 0. -/
def State.stopped (s : State pcBits) : Bool := s.cause != 0

/-- R143: completion, tested at each step and never stored. -/
def State.atEnd (s : State pcBits) : Bool := decide (s.prog.len ≤ s.pc.toNat)

/-- The state `raise Stop(cause, detail)` leaves: STATUS written, every other element as it was (R251). -/
def stopState (c : Cause) (detail : Byte) (s : State pcBits) : State pcBits := { s with status := stopStatus c detail }

/-- `raise Stop(cause, detail)` (R251). Control goes nowhere: no address is saved and no vector is taken
(R254). -/
def raiseStop (c : Cause) (detail : Byte) (s : State pcBits) : Outcome pcBits := .next (stopState c detail s)

/-! ### Registers and the program counter -/

/-- `x[i]` (R21). -/
def State.reg (s : State pcBits) (i : Fin nregs) : Word := s.regs[i]

/-- `x[d] <- v; LASTW <- d`: the write of LOAD and the arithmetic instructions (R31). -/
def writeDest (d : Fin nregs) (v : Word) (s : State pcBits) : State pcBits :=
  { s with regs := s.regs.set d v, lastw := d }

/-- `REM <- v` (R30). -/
def setRem (v : Word) (s : State pcBits) : State pcBits := { s with rem := v }

/-- `OUT = x[LASTW]` (R32): computed, not stored. -/
def State.out (s : State pcBits) : Word := s.reg s.lastw

/-- `pc <- t` (R10). -/
def setPc (t : Pc pcBits) (s : State pcBits) : State pcBits := { s with pc := t }

/-- `pc <- s + 4`, to the next word, modulo 2^32 (R26, R28). -/
def advance (s : State pcBits) : State pcBits := setPc (s.pc + 4) s

/-- `HeapGrow(n)` (R58). -/
def heapGrow (n : Nat) (s : State pcBits) : State pcBits := { s with heap := s.heap.appendZeros n }

end Sys2Proof.Machine
end

