-- ==== Sys2Proof/Machine/Operands.lean ====
section
/-! DEFINITION. Operand forms: the register operand with its index check (R23, R146), the sign-extended
immediate (R83), and the narrowing of an exact result to a register pattern (R180). -/

namespace Sys2Proof.Machine

variable {pcBits : Nat}

/-- A register operand (R23, R146): byte `b` names register `b` when it is below 32; otherwise the step
stops with `FAULT_REG_INDEX` and the byte as detail, before any state changes. A meaning names its
register operands in slot order, so the first bad slot is the one reported. -/
def withReg (b : Byte) (s : State pcBits) (k : Fin nregs → Outcome pcBits) : Outcome pcBits :=
  if h : b.toNat < nregs then k ⟨b.toNat, h⟩ else raiseStop .faultRegIndex b s

/-- `sext_32(v16)` (R9, R83). -/
def sext32 (v : Imm16) : Word := v.signExtend 32

/-- The exact integer reduced modulo 2^32 into a register pattern (R180). -/
def wrap32 (z : Int) : Word := BitVec.ofInt 32 z

/-- R180: an exact result lies in the signed 32-bit range. -/
def inSignedRange (z : Int) : Bool := decide (-2 ^ 31 ≤ z ∧ z < 2 ^ 31)

/-- R180: the register pattern of an exact result under the overflow policy; none is the `FAULT_OVERFLOW` of
the fault policy. -/
def narrow (policy : OverflowPolicy) (z : Int) : Option Word :=
  match policy with
  | .wrap => some (wrap32 z)
  | .fault => if inSignedRange z then some (wrap32 z) else none

end Sys2Proof.Machine
end

