-- ==== Sys2Proof/Machine/Arithmetic.lean ====
section
/-! DEFINITION. The meanings of ADD, SUB, MUL and DIV (42_arithmetic.md). The definitions ending in `With` take
the parameters of R8; the meanings `exec…` are those at the spec's defaults. -/

namespace Sys2Proof.Machine

variable {pcBits : Nat}

/-- The common form of ADD, SUB and MUL (R180 to R183): check `l`, `r`, `d` in that order, read both sources
as signed, compute exactly, narrow under the overflow policy, write the destination, go to the next word. -/
def binaryOp (policy : OverflowPolicy) (f : Int → Int → Int) (l r d : Byte) (s : State pcBits) : Outcome pcBits :=
  withReg l s fun i => withReg r s fun j => withReg d s fun k =>
    match narrow policy (f (s32 (s.reg i)) (s32 (s.reg j))) with
    | some v => .next (advance (writeDest k v s))
    | none => raiseStop .faultOverflow 0 s

/-- R181, over the parameters. -/
def addWith (P : Params) (l r d : Byte) (s : State pcBits) : Outcome pcBits :=
  binaryOp P.overflowPolicy (fun a c => a + c) l r d s

/-- R182, over the parameters: left minus right. -/
def subWith (P : Params) (l r d : Byte) (s : State pcBits) : Outcome pcBits :=
  binaryOp P.overflowPolicy (fun a c => a - c) l r d s

/-- R183, over the parameters: the high half of the product is discarded. -/
def mulWith (P : Params) (l r d : Byte) (s : State pcBits) : Outcome pcBits :=
  binaryOp P.overflowPolicy (fun a c => a * c) l r d s

/-- R185: the quotient truncates toward zero. -/
def quotient (a c : Int) : Int := a.tdiv c

/-- R185: the remainder is `a - q * c`; where an operand is negative it is the parameter of I-11, whose
default is the same. -/
def remainder (P : Params) (a c : Int) : Int :=
  if 0 ≤ a ∧ 0 ≤ c then a - quotient a c * c else P.negativeRemainder a c

/-- R184, over the parameters: the quotient goes to `x[d]`, the remainder to REM; a zero divisor and
-2^31 / -1 stop with detail `b2`, the divisor's byte, checked in that order after the register check. -/
def divWith (P : Params) (l r d : Byte) (s : State pcBits) : Outcome pcBits :=
  withReg l s fun i => withReg r s fun j => withReg d s fun k =>
    let a := s32 (s.reg i)
    let c := s32 (s.reg j)
    if c = 0 then raiseStop .faultDivZero r s
    else if a = -2 ^ 31 ∧ c = -1 then raiseStop .faultDivOverflow r s
    else .next (advance (setRem (wrap32 (remainder P a c)) (writeDest k (wrap32 (quotient a c)) s)))

/-- ADD (R181). -/
def execAdd (l r d : Byte) (s : State pcBits) : Outcome pcBits := addWith params l r d s

/-- SUB (R182). -/
def execSub (l r d : Byte) (s : State pcBits) : Outcome pcBits := subWith params l r d s

/-- MUL (R183). -/
def execMul (l r d : Byte) (s : State pcBits) : Outcome pcBits := mulWith params l r d s

/-- DIV (R184). -/
def execDiv (l r d : Byte) (s : State pcBits) : Outcome pcBits := divWith params l r d s

end Sys2Proof.Machine
end

