-- ==== Sys2Proof/Machine/Flags.lean ====
section
/-! DEFINITION. The comparison flag: the six relations on signed values (R220 to R226) and the one operation
that writes FLAG. -/

namespace Sys2Proof.Machine

variable {pcBits : Nat}

/-- `FLAG <- v` (R29). -/
def setFlag (v : Bool) (s : State pcBits) : State pcBits := { s with flag := v }

/-- R221: EQ compares the two patterns. -/
def relEq (a c : Word) : Bool := a == c

/-- R222: NEQ compares the two patterns. -/
def relNeq (a c : Word) : Bool := a != c

/-- R223: signed greater than. -/
def relGt (a c : Word) : Bool := decide (s32 a > s32 c)

/-- R224: signed less than. -/
def relLt (a c : Word) : Bool := decide (s32 a < s32 c)

/-- R225: signed greater than or equal. -/
def relGteq (a c : Word) : Bool := decide (s32 a ≥ s32 c)

/-- R226: signed less than or equal. -/
def relLteq (a c : Word) : Bool := decide (s32 a ≤ s32 c)

/-- R220: check `l`, then `r`; read both; write FLAG with the relation; go to the next word. -/
def compareRegs (rel : Word → Word → Bool) (l r : Byte) (s : State pcBits) : Outcome pcBits :=
  withReg l s fun i => withReg r s fun j =>
    .next (advance (setFlag (rel (s.reg i) (s.reg j)) s))

end Sys2Proof.Machine
end

