-- ==== Sys2Proof/Machine/Compare.lean ====
section
/-! DEFINITION. The meanings of the six comparisons (44_compare.md); the discarded byte `b3` is neither checked
nor used (R91, R220). -/

namespace Sys2Proof.Machine

variable {pcBits : Nat}

/-- EQ (R221). -/
def execEq (l r : Byte) (s : State pcBits) : Outcome pcBits := compareRegs relEq l r s

/-- NEQ (R222). -/
def execNeq (l r : Byte) (s : State pcBits) : Outcome pcBits := compareRegs relNeq l r s

/-- GT (R223). -/
def execGt (l r : Byte) (s : State pcBits) : Outcome pcBits := compareRegs relGt l r s

/-- LT (R224). -/
def execLt (l r : Byte) (s : State pcBits) : Outcome pcBits := compareRegs relLt l r s

/-- GTEQ (R225). -/
def execGteq (l r : Byte) (s : State pcBits) : Outcome pcBits := compareRegs relGteq l r s

/-- LTEQ (R226). -/
def execLteq (l r : Byte) (s : State pcBits) : Outcome pcBits := compareRegs relLteq l r s

end Sys2Proof.Machine
end

