-- ==== Sys2Proof/Machine/Jump.lean ====
section
/-! DEFINITION. The meanings of JMP, JMPF, JMPB and JEQ (43_jump.md). A target is neither aligned nor checked
(R200): one at or beyond `L` completes at the next step. -/

namespace Sys2Proof.Machine

variable {pcBits : Nat}

/-- R200: a register value as an absolute target or an offset, its unsigned value modulo 2^PC_BITS: `u32(v)` itself
at the spec's 32 bits (log entry 7). -/
def jumpValue (v : Word) : Pc pcBits := v.setWidth pcBits

/-- R200: the base of the relative jumps, just past the opcode and register bytes. -/
def relativeBase (s : State pcBits) : Pc pcBits := s.pc + 2

/-- JMP (R201): `pc <- u32(x[r])`. -/
def execJmp (r : Byte) (s : State pcBits) : Outcome pcBits :=
  withReg r s fun i => .next (setPc (jumpValue (s.reg i)) s)

/-- JMPF (R202): `pc <- (s + 2 + u32(x[r])) mod 2^32`, at the spec's width. -/
def execJmpf (r : Byte) (s : State pcBits) : Outcome pcBits :=
  withReg r s fun i => .next (setPc (relativeBase s + jumpValue (s.reg i)) s)

/-- JMPB (R203): `pc <- (s + 2 - u32(x[r])) mod 2^32`, at the spec's width. -/
def execJmpb (r : Byte) (s : State pcBits) : Outcome pcBits :=
  withReg r s fun i => .next (setPc (relativeBase s - jumpValue (s.reg i)) s)

/-- R204, over the parameters: the register is checked on both paths (D18), FLAG is left as it is (D40). -/
def jeqWith (P : Params) (r : Byte) (s : State pcBits) : Outcome pcBits :=
  withReg r s fun i =>
    if s.flag then .next (setPc (jumpValue (s.reg i)) s)
    else .next (setPc (s.pc + BitVec.ofNat pcBits P.jeqNotTakenAdvance) s)

/-- JEQ (R204). -/
def execJeq (r : Byte) (s : State pcBits) : Outcome pcBits := jeqWith params r s

end Sys2Proof.Machine
end

