-- ==== Sys2Proof/Machine/Load.lean ====
section
/-! DEFINITION. The meaning of LOAD (41_load.md). -/

namespace Sys2Proof.Machine

variable {pcBits : Nat}

/-- R170: `x[d] <- sext_32(imm16); LASTW <- d; pc <- s + 4`. -/
def execLoad (d : Byte) (imm : Imm16) (s : State pcBits) : Outcome pcBits :=
  withReg d s fun i => .next (advance (writeDest i (sext32 imm) s))

end Sys2Proof.Machine
end

