-- ==== Sys2Proof/Machine/System.lean ====
section
/-! DEFINITION. The meanings of HALT, ILLEGAL (40_dispatch.md) and ALLOC (45_alloc.md). -/

namespace Sys2Proof.Machine

variable {pcBits : Nat}

/-- HALT (R149): `raise Stop(HALTED, 0)`; `pc` stays at the instruction. -/
def execHlt (s : State pcBits) : Outcome pcBits := raiseStop .halted 0 s

/-- ILLEGAL (R150): `raise Stop(ILLEGAL_OPCODE, b0)`; `pc` stays at the instruction. -/
def execIllegal (b0 : Byte) (s : State pcBits) : Outcome pcBits := raiseStop .illegalOpcode b0 s

/-- R240, over the parameters: a negative count stops, then a growth past `HEAP_MAX` stops, each with detail
`b1`; otherwise the heap grows by that many zero bytes. -/
def allocWith (P : Params) (r : Byte) (s : State pcBits) : Outcome pcBits :=
  withReg r s fun i =>
    let n := s32 (s.reg i)
    if n < 0 then raiseStop .faultNegAlloc r s
    else if s.heap.len + n.toNat > P.heapMax then raiseStop .faultHeapLimit r s
    else .next (advance (heapGrow n.toNat s))

/-- ALLOC (R240). -/
def execAlloc (r : Byte) (s : State pcBits) : Outcome pcBits := allocWith params r s

end Sys2Proof.Machine
end

