-- ==== Sys2Proof/Machine/Dispatch.lean ====
section
/-! DEFINITION. The dispatch of R147: one arm per instruction, each one direct call of its meaning. -/

namespace Sys2Proof.Machine

/-- R147: the rule of the instruction, its register check (R146) included (log entry 10). -/
def exec (i : Instr) (s : State) : Host.Outcome State Fault Refusal :=
  match i with
  | .hlt => Sys2Proof.Machine.execHlt s
  | .load d imm => Sys2Proof.Machine.execLoad d imm s
  | .add l r d => Sys2Proof.Machine.execAdd l r d s
  | .sub l r d => Sys2Proof.Machine.execSub l r d s
  | .mul l r d => Sys2Proof.Machine.execMul l r d s
  | .div l r d => Sys2Proof.Machine.execDiv l r d s
  | .jmp r => Sys2Proof.Machine.execJmp r s
  | .jmpf r => Sys2Proof.Machine.execJmpf r s
  | .jmpb r => Sys2Proof.Machine.execJmpb r s
  | .eq l r => Sys2Proof.Machine.execEq l r s
  | .neq l r => Sys2Proof.Machine.execNeq l r s
  | .gt l r => Sys2Proof.Machine.execGt l r s
  | .lt l r => Sys2Proof.Machine.execLt l r s
  | .gteq l r => Sys2Proof.Machine.execGteq l r s
  | .lteq l r => Sys2Proof.Machine.execLteq l r s
  | .jeq r => Sys2Proof.Machine.execJeq r s
  | .alloc r => Sys2Proof.Machine.execAlloc r s
  | .illegal b0 => Sys2Proof.Machine.execIllegal b0 s

end Sys2Proof.Machine
end

