-- ==== Sys2Proof/Machine/Fetch.lean ====
section
/-! DEFINITION. Instruction fetch (R51, R144, R145) and the step around an instruction's rule (R140), over the
parameters and over the dispatch it runs. -/

namespace Sys2Proof.Machine

variable {pcBits : Nat}

/-- R51: the bytes of the word at `pc` that lie in the program store, at most four, by increasing offset. No
byte at or above `L` is read. -/
def fetchBytes (s : State pcBits) : List Byte :=
  (List.range 4).filterMap fun k => s.prog.read (s.pc.toNat + k)

/-- R144, R145: decode at `pc`. -/
def fetch (P : Params) (s : State pcBits) : Decoded := decode (fetchBytes s) P.opcodeCode

/-- R140, in the order of R253: a stopped block changes nothing (R141); at or past the end nothing is executed
(R142); a truncated instruction stops (R145); otherwise the instruction's rule runs (R147), its register
check first (R146). -/
def runStep (P : Params) (run : Instr → State pcBits → Outcome pcBits) (s : State pcBits) : Outcome pcBits :=
  if s.stopped then .next s
  else if s.atEnd then .next s
  else match fetch P s with
    | .noByte => .next s
    | .truncated b0 => raiseStop .faultTruncated b0 s
    | .instr i => run i s

/-- The cells with the bytes from offset `a` on replaced. -/
def Memory.putList : List Host.Cell → Nat → List Byte → List Host.Cell
  | cells, _, [] => cells
  | cells, a, b :: bs => Memory.putList (Memory.put cells a b) (a + 1) bs

/-- A store with the bytes from offset `a` on replaced, made longer where they pass its end; bytes between the
old end and `a` read as 0. -/
def Memory.place (m : Memory) (a : Nat) (bs : List Byte) : Memory :=
  ⟨Memory.putList m.cells a bs, max m.len (a + bs.length)⟩

/-- The state with a word placed where the next step fetches, and the block RUNNING so that it does fetch (log
entry 9). No host operation does this; it stands for a program loaded from outside. -/
def placeAtPc (bs : List Byte) (s : State pcBits) : State pcBits :=
  { s with prog := s.prog.place s.pc.toNat bs, status := 0 }

end Sys2Proof.Machine
end

