-- ==== Sys2Proof/Machine/Step.lean ====
section
/-! DEFINITION. The step (R140) at the spec's parameters, and the placing of one word where it fetches. -/

namespace Sys2Proof.Machine

/-- R140: one fetch-decode-dispatch-execute cycle. The value it returns to the host is `stepResult`
(Machine/HostOps.lean). -/
def step (s : State) : Host.Outcome State Fault Refusal := runStep params exec s

/-- `s` with the table word `w` stored where `step` fetches its next instruction (log entry 9). -/
def State.withFetchWord (s : State) (nbits w : Nat) : State := placeAtPc (tableBytes nbits w) s

end Sys2Proof.Machine
end

