-- ==== Sys2Proof/Machine/Lexer.lean ====
section
/-! DEFINITION. The lexer (R100 to R112): text to tokens, one token per pull. A text is a list of Unicode
characters (log entry 13). -/

namespace Sys2Proof.Machine

/-- R101: the four kinds of token. -/
inductive Token where
  /-- An opcode, possibly ILLEGAL. -/
  | operator (op : Opcode)
  /-- A register index, 0 to 255. -/
  | register (i : Byte)
  /-- A 16-bit integer. -/
  | integer (v : Imm16)
  /-- End of input. -/
  | eof
  deriving DecidableEq, Repr

/-- R102: space, tab, newline and carriage return, and no other character. -/
def isWhitespace (c : Char) : Bool := c == ' ' || c == '\t' || c == '\n' || c == '\r'

/-- R103: the decimal digits `0` to `9`. -/
def isDigit (c : Char) : Bool := decide (48 ≤ c.toNat ∧ c.toNat ≤ 57)

/-- R105: the ASCII letters and underscore. -/
def isIdentChar (c : Char) : Bool :=
  decide (65 ≤ c.toNat ∧ c.toNat ≤ 90) || decide (97 ≤ c.toNat ∧ c.toNat ≤ 122) || c == '_'

/-- R103, R104: a run of digits read as an unsigned decimal number; leading zeros are allowed. -/
def decimalValue (digits : List Char) : Nat :=
  digits.foldl (fun n c => 10 * n + (c.toNat - 48)) 0

/-- R103, R104, R107, R108: a sigil has been read and `rest` follows it. The maximal run of digits is the
literal; with no digit, or above `max`, the token is `Operator(ILLEGAL)`, covering the sigil alone or the
whole literal. -/
def sigilLiteral (max : Nat) (mk : Nat → Token) (rest : List Char) : Token × List Char :=
  let digits := rest.takeWhile isDigit
  if digits.isEmpty then (.operator .illegal, rest)
  else
    (if decimalValue digits ≤ max then mk (decimalValue digits) else .operator .illegal,
     rest.dropWhile isDigit)

/-- The token that begins at a character that is not whitespace, and what follows it (R103 to R109). -/
def tokenAt (c : Char) (rest : List Char) : Token × List Char :=
  if c == '$' then sigilLiteral 255 (fun n => .register (BitVec.ofNat 8 n)) rest
  else if c == '#' then sigilLiteral 32767 (fun n => .integer (BitVec.ofNat 16 n)) rest
  else if isIdentChar c then
    (.operator (mnemonicToOpcode (c :: rest.takeWhile isIdentChar)), rest.dropWhile isIdentChar)
  else if isDigit c then (.operator .illegal, rest.dropWhile isDigit)
  else (.operator .illegal, rest)

/-- One pull (R100): skip whitespace (R102), then the next token and the text after it; `End` when nothing is
left, at this and every later pull (R110). -/
def pullToken (text : List Char) : Token × List Char :=
  match text.dropWhile isWhitespace with
  | [] => (.eof, [])
  | c :: rest => tokenAt c rest

/-- The tokens of at most `fuel` pulls, then `End` (log entry 13). -/
def lexFrom : Nat → List Char → List Token
  | 0, _ => [.eof]
  | fuel + 1, text =>
    match pullToken text with
    | (.eof, _) => [.eof]
    | (t, rest) => t :: lexFrom fuel rest

/-- R100, R112: the whole token sequence of a text, ending in `End`. Each pull takes at least one character,
so as many pulls as there are characters are enough. -/
def lex (text : List Char) : List Token := lexFrom text.length text

end Sys2Proof.Machine
end

