-- ==== Sys2Proof/Machine/Assembler.lean ====
section
/-! DEFINITION. The assembler (R115 to R132): tokens to instruction words, one item per pull, all-or-nothing
per invocation. `code` is the parameter `OPCODE_CODE`. -/

namespace Sys2Proof.Machine

/-- R123: the syntax fault reasons. -/
inductive SyntaxFault where
  | integerWhereRegisterExpected
  | operatorInOperandPosition
  | prematureEnd
  | registerWhereIntegerExpected
  | operandWhereOperatorExpected
  deriving DecidableEq, Repr

/-- What an operand position of an assembler shape needs. -/
inductive OperandKind where
  | register | integer
  deriving DecidableEq, Repr

/-- One item of the lazy sequence `assemble` (R115): a word, the end, or a syntax fault. -/
inductive AsmItem where
  | word (w : InstrWord)
  | done
  | fault (f : SyntaxFault)
  deriving DecidableEq, Repr

/-- R117 to R122: the operands each opcode's assembler shape takes, in order. `alloc` has no mnemonic, so no
text yields its token (R130); its row follows its word format J (R82; log entry 12). -/
def asmShape : Opcode → List OperandKind
  | .halt | .illegal => []
  | .load => [.register, .integer]
  | .add | .sub | .mul | .div => [.register, .register, .register]
  | .jmp | .jmpf | .jmpb | .jeq | .alloc => [.register]
  | .eq | .neq | .gt | .lt | .gteq | .lteq => [.register, .register]

/-- R123, R124: the operand bytes a token gives at a position, or the fault for the token's kind. -/
def takeOperand : OperandKind → Token → Except SyntaxFault (List Byte)
  | .register, .register i => .ok [i]
  | .integer, .integer v => .ok [immHighByte v, immLowByte v]
  | .register, .integer _ => .error .integerWhereRegisterExpected
  | .integer, .register _ => .error .registerWhereIntegerExpected
  | _, .operator _ => .error .operatorInOperandPosition
  | _, .eof => .error .prematureEnd

/-- The next token and the tokens after it; past the last one it is `End` again (R110). -/
def nextToken : List Token → Token × List Token
  | [] => (.eof, [])
  | t :: ts => (t, ts)

/-- R124: the operand bytes of a shape, one token per position; at a fault no further token is pulled. -/
def readOperands : List OperandKind → List Token → Except SyntaxFault (List Byte × List Token)
  | [], ts => .ok ([], ts)
  | k :: ks, ts =>
    match takeOperand k (nextToken ts).1 with
    | .error f => .error f
    | .ok bytes =>
      match readOperands ks (nextToken ts).2 with
      | .error f => .error f
      | .ok (more, rest) => .ok (bytes ++ more, rest)

/-- The word of an opcode and its operand bytes, 0 in the slots they leave (R117 to R122). -/
def emitWord (op : Opcode) (bytes : List Byte) (code : Opcode → Byte := opcodeCode) : InstrWord :=
  ⟨opcodeToByte op code, bytes.getD 0 0, bytes.getD 1 0, bytes.getD 2 0⟩

/-- R116: one pull of the assembler. After a fault or `End` it yields nothing further (R115): the tokens left
are none. -/
def pullInstr (ts : List Token) (code : Opcode → Byte := opcodeCode) : AsmItem × List Token :=
  match nextToken ts with
  | (.eof, _) => (.done, [])
  | (.register _, _) => (.fault .operandWhereOperatorExpected, [])
  | (.integer _, _) => (.fault .operandWhereOperatorExpected, [])
  | (.operator op, rest) =>
    match readOperands (asmShape op) rest with
    | .error f => (.fault f, [])
    | .ok (bytes, rest) => (.word (emitWord op bytes code), rest)

/-- The outcome of one invocation (R125): every word in pull order, or the fault's reason and no word. -/
inductive Assembled where
  | words (ws : List InstrWord)
  | fault (f : SyntaxFault)
  deriving DecidableEq, Repr

/-- A word pulled before the rest of an invocation: kept only if the rest succeeds (R125). -/
def Assembled.cons (w : InstrWord) : Assembled → Assembled
  | .words ws => .words (w :: ws)
  | .fault f => .fault f

/-- An invocation of at most `fuel` pulls (log entry 13). -/
def assembleFrom (code : Opcode → Byte) : Nat → List Token → Assembled
  | 0, _ => .words []
  | fuel + 1, ts =>
    match pullInstr ts code with
    | (.done, _) => .words []
    | (.fault f, _) => .fault f
    | (.word w, rest) => (assembleFrom code fuel rest).cons w

/-- R125: pull until `End` or a fault. Each pulled word takes at least one token, so as many pulls as there
are tokens, and one for `End`, are enough. -/
def assemble (ts : List Token) (code : Opcode → Byte := opcodeCode) : Assembled :=
  assembleFrom code (ts.length + 1) ts

/-- The pipeline of R132: text to tokens to words. -/
def assembleText (text : List Char) (code : Opcode → Byte := opcodeCode) : Assembled :=
  assemble (lex text) code

end Sys2Proof.Machine
end

