-- ==== Sys2Proof/Machine/Parametric.lean ====
section
/-! DEFINITION. The machine over every value of the parameters of R8 ("A model should take each of these as an
argument whose default is the value given"). At the spec's values it is `exec` and `step`. -/

namespace Sys2Proof.Machine

variable {pcBits : Nat}

/-- R147 over the parameters. -/
def execWith (P : Params) (i : Instr) (s : State pcBits) : Outcome pcBits :=
  match i with
  | .hlt => execHlt s
  | .load d imm => execLoad d imm s
  | .add l r d => addWith P l r d s
  | .sub l r d => subWith P l r d s
  | .mul l r d => mulWith P l r d s
  | .div l r d => divWith P l r d s
  | .jmp r => execJmp r s
  | .jmpf r => execJmpf r s
  | .jmpb r => execJmpb r s
  | .eq l r => execEq l r s
  | .neq l r => execNeq l r s
  | .gt l r => execGt l r s
  | .lt l r => execLt l r s
  | .gteq l r => execGteq l r s
  | .lteq l r => execLteq l r s
  | .jeq r => jeqWith P r s
  | .alloc r => allocWith P r s
  | .illegal b0 => execIllegal b0 s

/-- R140 over the parameters. -/
def stepWith (P : Params) (s : State pcBits) : Outcome pcBits := runStep P (execWith P) s

end Sys2Proof.Machine
end

