-- ==== Sys2Proof/Machine/HostOps.lean ====
section
/-! DEFINITION. The host interface (R160): the seven operations, the value a step returns (R148), and `run` as a
relation (R153). Each operation is atomic and happens between steps (R62). All of it is over every value of the
parameters of R8, with the spec's values as the default. -/

namespace Sys2Proof.Machine

variable {pcBits : Nat}

/-! ### Steps and runs -/

/-- The state after one step. A step always answers a next state (`stepWith_next` of Laws/Step.lean). -/
def afterStep (s : State pcBits) (P : Params := params) : State pcBits :=
  match stepWith P s with
  | .next t => t
  | .fault _ => s
  | .refused _ => s

/-- R148: what a step returns. -/
inductive StepResult where
  /-- An instruction completed and STATUS is RUNNING. -/
  | continued
  /-- `pc >= L`: nothing was executed. -/
  | completed
  /-- The block is stopped, by this step or an earlier one. -/
  | stopped (status : Status)
  deriving DecidableEq, Repr

/-- R140, R148: what the step taken from `s` returns. -/
def stepResult (s : State pcBits) (P : Params := params) : StepResult :=
  if s.stopped then .stopped s.status
  else if s.atEnd then .completed
  else if (afterStep s P).stopped then .stopped (afterStep s P).status
  else .continued

/-- R152: `run` goes on exactly while the block is RUNNING and `pc < L`. -/
def State.active (s : State pcBits) : Bool := !s.stopped && !s.atEnd

/-- One step that `run` takes (R152). -/
def RunStep (s t : State pcBits) (P : Params := params) : Prop :=
  s.active = true ∧ stepWith P s = .next t

/-- R153: the transitive closure of the steps of `run`. -/
def RunsTo (s t : State pcBits) (P : Params := params) : Prop :=
  Relation.ReflTransGen (fun a b => RunStep a b P) s t

/-- R152: `run` started at `s` ends at `t` and returns `r`: STOPPED when a step stopped, COMPLETED when
`pc >= L`. -/
def RunEnds (s t : State pcBits) (r : StepResult) (P : Params := params) : Prop :=
  RunsTo s t P ∧
    ((t.stopped = true ∧ r = .stopped t.status) ∨
      (t.stopped = false ∧ t.atEnd = true ∧ r = .completed))

/-- What an executor under a fuel count reports (R153): running out of fuel is not a state of the block and is
never `COMPLETED`. -/
inductive RunOutcome (pcBits : Nat := 32) where
  | ended (t : State pcBits) (r : StepResult)
  | outOfFuel (t : State pcBits)
  deriving DecidableEq, Repr

/-- An executor of `run` that takes at most `fuel` steps (R153, D36). -/
def runFuel (fuel : Nat) (s : State pcBits) (P : Params := params) : RunOutcome pcBits :=
  if s.stopped then .ended s (.stopped s.status)
  else if s.atEnd then .ended s .completed
  else match fuel with
    | 0 => .outOfFuel s
    | fuel + 1 => runFuel fuel (afterStep s P) P

/-- R153: a hang, an infinite run. -/
def Hangs (s : State pcBits) (P : Params := params) : Prop :=
  ∀ fuel, ∃ t, runFuel fuel s P = .outOfFuel t

/-! ### The operations -/

/-- R162: append one byte at offset `L`; refused (none) at `PROG_MAX`. -/
def appendByte (b : Byte) (s : State pcBits) (P : Params := params) : Option (State pcBits) :=
  if s.prog.len < P.progMax then some { s with prog := s.prog.append b } else none

/-- R163: append a word at offsets `L` to `L + 3`; refused when it does not fit. -/
def appendWord (w : InstrWord) (s : State pcBits) (P : Params := params) : Option (State pcBits) :=
  if s.prog.len + 4 ≤ P.progMax then some { s with prog := s.prog.appendList w.bytes } else none

/-- R167: append all words in order, as by `append_word`. -/
def appendWords (ws : List InstrWord) (s : State pcBits) : State pcBits :=
  { s with prog := s.prog.appendList (ws.flatMap InstrWord.bytes) }

/-- What `read` shows the host (R165): the whole state, and the computed `OUT`. -/
structure HostView (pcBits : Nat := 32) where
  state : State pcBits
  out : Word
  deriving DecidableEq, Repr

/-- The host's operations (R160). -/
inductive HostOp where
  | reset
  | appendByte (b : Byte)
  | appendWord (w : InstrWord)
  | assembleAndAppend (text : List Char)
  | singleStep
  | run
  | read
  deriving DecidableEq, Repr

/-- What the host is told. -/
inductive HostReply (pcBits : Nat := 32) where
  /-- The operation was done. -/
  | done
  /-- The append was refused and nothing changed (R162, R163, R167). -/
  | refused
  /-- Assembling failed with this reason and nothing was appended (R167). -/
  | syntaxFault (f : SyntaxFault)
  /-- `single_step`: whether execution should continue, and the step's result (R151). -/
  | stepped (goOn : Bool) (r : StepResult)
  /-- `run` ended (R152). -/
  | ended (r : StepResult)
  /-- `read` (R165). -/
  | view (v : HostView pcBits)
  deriving DecidableEq, Repr

/-- R167: assemble the whole text; append every word or none. -/
def assembleAndAppend (text : List Char) (s : State pcBits) (P : Params := params) :
    State pcBits × HostReply pcBits :=
  match assembleText text P.opcodeCode with
  | .fault f => (s, .syntaxFault f)
  | .words ws =>
    if s.prog.len + 4 * ws.length ≤ P.progMax then (appendWords ws s, .done) else (s, .refused)

/-- The reply to an append: done, or refused with the state unchanged. -/
def appendReply (s : State pcBits) : Option (State pcBits) → State pcBits × HostReply pcBits
  | some t => (t, .done)
  | none => (s, .refused)

/-- R165. -/
def read (s : State pcBits) : HostView pcBits := ⟨s, s.out⟩

/-- R151: exactly one step. -/
def singleStep (s : State pcBits) (P : Params := params) : State pcBits × HostReply pcBits :=
  (afterStep s P, .stepped (stepResult s P == .continued) (stepResult s P))

/-- R160: operation `op` made in state `s` leaves `t` and replies `reply`. `run` relates nothing where the run is
infinite (R153); every other operation is a function of the state. -/
def HostStep (op : HostOp) (s t : State pcBits) (reply : HostReply pcBits) (P : Params := params) :
    Prop :=
  match op with
  | .reset => (t, reply) = (State.resetAt pcBits, .done)
  | .appendByte b => (t, reply) = appendReply s (Machine.appendByte b s P)
  | .appendWord w => (t, reply) = appendReply s (Machine.appendWord w s P)
  | .assembleAndAppend text => (t, reply) = Machine.assembleAndAppend text s P
  | .singleStep => (t, reply) = Machine.singleStep s P
  | .run => ∃ r, RunEnds s t r P ∧ reply = .ended r
  | .read => (t, reply) = (s, .view (Machine.read s))

end Sys2Proof.Machine
end

