-- ==== Sys2Proof/Safety.lean ====
section
/-! DEFINITION. The terms claims use: which runs end well (R264), the invariants of R40, and the states the host
can bring the block to (R160, R166). -/

namespace Sys2Proof.Machine

variable {pcBits : Nat}

/-- R250, R264: a STATUS word that records a fail-stop: CAUSE neither RUNNING (0) nor HALTED (1). -/
def isFailStop (st : Status) : Bool :=
  let cause : BitVec 4 := st.extractLsb' 0 4
  cause != 0 && cause != Cause.halted.code

/-- R264: HALTED and COMPLETED are the two normal ends; a fail-stop is never one. -/
def endsNormally : StepResult → Bool
  | .continued => false
  | .completed => true
  | .stopped st => st.extractLsb' 0 4 == Cause.halted.code

/-- R264: a run that ends normally. -/
def RunsNormally (s t : State pcBits) (P : Params := params) : Prop :=
  ∃ r, RunEnds s t r P ∧ endsNormally r = true

/-- R40 (with the store's canonical form, which is the model's own): what holds in every reachable state. That
LASTW is in 0..31 is its type. -/
structure Inv (s : State pcBits) (P : Params := params) : Prop where
  /-- `HEAP_LEN <= HEAP_MAX`. -/
  heapLen : s.heap.len ≤ P.heapMax
  /-- Every heap byte is 0. -/
  heapZero : ∀ a, a < s.heap.len → s.heap.read a = some 0
  /-- `L <= PROG_MAX`. -/
  progLen : s.prog.len ≤ P.progMax
  /-- `STATUS[7:4] = 0`. -/
  reserved : s.statusReserved = 0
  /-- If CAUSE is 0 then DETAIL is 0. -/
  detail : s.cause = 0 → s.detail = 0
  /-- CAUSE is one of the codes of R250; 10 to 15 are never written. -/
  causeLegal : s.cause.toNat ≤ 9
  /-- Both stores are in canonical form. -/
  heapWf : s.heap.wf = true
  progWf : s.prog.wf = true

/-- One host operation, whatever its reply. -/
def HostReaches (s t : State pcBits) (P : Params := params) : Prop :=
  ∃ op reply, HostStep op s t reply P

/-- R160, R166: the states the host can bring the block to from reset. -/
def Reachable (s : State pcBits) (P : Params := params) : Prop :=
  Relation.ReflTransGen (fun a b => HostReaches a b P) (State.resetAt pcBits) s

end Sys2Proof.Machine
end

