-- ==== Sys2Proof/WellFormed.lean ====
section
/-! DEFINITION. Which instruction terms are instructions of the machine. The one check an encoding makes is
on ILLEGAL: its byte is one that no opcode has (R90). A register byte of 32 or more is a legal encoding
(R131) that stops when it runs (R146): `regsInRange` names that second, separate check. -/

namespace Sys2Proof

/-- R90: an ILLEGAL term holds an unmapped opcode byte; every other term is an encodable instruction. -/
def wellFormed (i : Instr) (code : Opcode → Byte := opcodeCode) : Bool :=
  match i with
  | .illegal b0 => Opcode.defined.all fun op => code op != b0
  | _ => true

/-- R23: every register operand byte names a register. -/
def regsInRange (i : Instr) : Bool := (firstBadRegister i).isNone

end Sys2Proof
end

