-- ==== Sys2Proof/Certificates/Slice0/Obligations.lean ====
section
/-! DEFINITION. The statements for the provers, in the order of the spec's files. Each docstring names the rule
or the sections the statement formalises. A STATUS value is written out as `detail ++ cause` from R34 and
R250, not through the model's own encoding of it. -/

open Sys2Proof Sys2Proof.Machine

/-! ### Opcode table, decoding, encoding (30_encoding.md) -/

/-- R94, R87: both round-trip laws, ILLEGAL and its canonical byte included, over the 16 mnemonics of R84. -/
def Obligations.OpcodeTableRoundTrips : Prop :=
  (∀ op, byteToOpcode (opcodeToByte op) = op) ∧ opcodeToByte .illegal = 0xFF ∧
  ∀ m ∈ [("hlt", Opcode.halt), ("load", .load), ("add", .add), ("sub", .sub), ("mul", .mul), ("div", .div),
      ("jmp", .jmp), ("jmpf", .jmpf), ("jmpb", .jmpb), ("eq", .eq), ("neq", .neq), ("gt", .gt), ("lt", .lt),
      ("gteq", .gteq), ("lteq", .lteq), ("jeq", .jeq)], mnemonicToOpcode m.1.toList = m.2

/-- R93: a text that is none of the 16 lowercase mnemonics maps to ILLEGAL, `alloc` and uppercase spellings
among them. -/
def Obligations.OtherTextsAreIllegal : Prop :=
  ∀ text : List Char, text ∉ ["hlt", "load", "add", "sub", "mul", "div", "jmp", "jmpf", "jmpb", "eq", "neq",
      "gt", "lt", "gteq", "lteq", "jeq"].map String.toList → mnemonicToOpcode text = .illegal

/-- R86: the lookup of an opcode byte is total: bytes 0x00 to 0x10 name the opcode whose code they are, all
others are ILLEGAL. -/
def Obligations.OpcodeBytesAreTotal : Prop :=
  ∀ b : Byte, (b.toNat ≤ 0x10 → byteToOpcode b ≠ .illegal ∧ opcodeToByte (byteToOpcode b) = b) ∧
    (0x11 ≤ b.toNat → byteToOpcode b = .illegal)

/-- A sanity statement: words written out bit by bit from R82, R83 and R84, one or more of each format and
family, decode to the instructions they stand for. -/
def Obligations.WrittenOutWordsDecode : Prop :=
  decode [0b00000000, 0x12, 0x34, 0x56] = .instr .hlt ∧
  decode [0b00000001, 0b00000101, 0b10000000, 0b00000001] = .instr (.load 5 0x8001) ∧
  decode [0b00000010, 0b00000000, 0b00000001, 0b00000010] = .instr (.add 0 1 2) ∧
  decode [0b00000101, 0b00011111, 0b00000001, 0b11111111] = .instr (.div 31 1 255) ∧
  decode [0b00000111, 0b00000011, 0b10101010, 0b01010101] = .instr (.jmpf 3) ∧
  decode [0b00001011, 0b00000001, 0b00000010, 0b11111111] = .instr (.gt 1 2) ∧
  decode [0b00001111, 0b00000100, 0b00000000, 0b00000000] = .instr (.jeq 4) ∧
  decode [0b00010000, 0b00000011, 0b00000000, 0b00000000] = .instr (.alloc 3) ∧
  decode [0b01000000, 0b00000001, 0b00000010, 0b00000011] = .instr (.illegal 0x40)

/-- Headline, over every opcode numbering in which the 17 opcodes have different bytes (D1 asks for it), the
default among them: decoding an encoded well-formed instruction gives it back, with every operand byte from 0
to 255 and every immediate, whatever bytes follow. -/
def Obligations.DecodeInvertsEncode : Prop :=
  ∀ code : Opcode → Byte,
    (∀ op ∈ Opcode.defined, ∀ op' ∈ Opcode.defined, code op = code op' → op = op') →
    ∀ (i : Instr) (more : List Byte), wellFormed i code = true →
      decode (encode i code ++ more) code = .instr i

/-- R92, R91: every one of the 2^32 words decodes to exactly the opcode of its first byte, as a well-formed
instruction whose own word is the same word with the unused bytes 0. -/
def Obligations.EveryWordDecodes : Prop :=
  ∀ b0 b1 b2 b3 : Byte, ∃ i, decode [b0, b1, b2, b3] = .instr i ∧ wellFormed i = true ∧
    opcodeOf i = byteToOpcode b0 ∧
    encode i = b0 :: List.zipWith (fun (k : SlotKind) (b : Byte) => if k = .unused then 0 else b)
      (shape (byteToOpcode b0)) [b1, b2, b3]

/-! ### The step (40_dispatch.md) -/

/-- R140, R144, R147: a running block runs the decoded instruction. If the program bytes from `pc` on begin with
`bytes`, and these decode to `i`, the step is `exec i`; the model's step adds nothing around it. -/
def Obligations.StepRunsTheDecodedInstruction : Prop :=
  ∀ (s : State) (bytes : List Byte) (i : Instr), s.stopped = false →
    (∀ k (h : k < bytes.length), s.prog.read (s.pc.toNat + k) = some bytes[k]) →
    decode bytes = .instr i → step s = exec i s

/-- R141: a stopped block changes nothing and returns STOPPED with its STATUS. -/
def Obligations.StoppedBlockStaysStopped : Prop :=
  ∀ s : State, s.status.extractLsb' 0 4 ≠ (0 : BitVec 4) →
    step s = .next s ∧ stepResult s = .stopped s.status

/-- R142: at `pc >= L` a running block changes nothing and returns COMPLETED. -/
def Obligations.CompletionChangesNothing : Prop :=
  ∀ s : State, s.status.extractLsb' 0 4 = (0 : BitVec 4) → s.prog.len ≤ s.pc.toNat →
    step s = .next s ∧ stepResult s = .completed

/-- R145, R88: an opcode other than HALT and ILLEGAL whose word runs past the program's end stops with
FAULT_TRUNCATED and detail `b0`; `pc` and all else stay. -/
def Obligations.TruncatedWordStops : Prop :=
  ∀ (s : State) (b0 : Byte), s.stopped = false → s.prog.read s.pc.toNat = some b0 →
    byteToOpcode b0 ≠ .halt → byteToOpcode b0 ≠ .illegal → s.prog.len < s.pc.toNat + 4 →
    step s = .next { s with status := b0 ++ (0x03 : Byte) }

/-- R146, R23: the first register-shaped operand byte of 32 or more, in slot order, stops any instruction with
FAULT_REG_INDEX and that byte as detail, before anything else happens. -/
def Obligations.FirstBadRegisterStops : Prop :=
  ∀ (i : Instr) (s : State) (b : Byte),
    (List.zip (shape (opcodeOf i)) (operandBytes i)).find?
      (fun p => p.1 == .reg && decide (32 ≤ p.2.toNat)) = some (.reg, b) →
    exec i s = .next { s with status := b ++ (0x04 : Byte) }

/-- R148: what a step returns: CONTINUE exactly when it ran an instruction and the block is RUNNING after it,
COMPLETED exactly when it was running at the end, STOPPED with the new STATUS otherwise. -/
def Obligations.StepResultsTellTheStep : Prop :=
  ∀ s t : State, step s = .next t →
    (stepResult s = .continued ↔ t.stopped = false ∧ s.pc.toNat < s.prog.len) ∧
    (stepResult s = .completed ↔ s.stopped = false ∧ s.prog.len ≤ s.pc.toNat) ∧
    (∀ st, stepResult s = .stopped st ↔ t.stopped = true ∧ st = t.status)

/-- R149: HALT stops with HALTED and detail 0 and changes nothing else; it needs one byte only, so it halts at
the program's last byte and in the middle of another word. -/
def Obligations.HaltStops : Prop :=
  (∀ s : State, exec .hlt s = .next { s with status := 0x0001 }) ∧
  ∀ s : State, s.stopped = false → s.prog.read s.pc.toNat = some 0x00 →
    step s = .next { s with status := 0x0001 }

/-- R150, R90: an unmapped opcode byte stops with ILLEGAL_OPCODE, the byte as detail, and nothing else
changed; the operand bytes need not be there. -/
def Obligations.IllegalStops : Prop :=
  (∀ (b0 : Byte) (s : State), exec (.illegal b0) s = .next { s with status := b0 ++ (0x02 : Byte) }) ∧
  ∀ (b0 : Byte) (s : State), s.stopped = false → s.prog.read s.pc.toNat = some b0 → 0x11 ≤ b0.toNat →
    step s = .next { s with status := b0 ++ (0x02 : Byte) }

/-- 20_memory.md R51, 30_encoding.md R91, R92: a step depends on the program only through its length and the
bytes at `pc` to `pc + 3`, and not through an unused operand byte: on another program that agrees there it
does the same to everything but the program. -/
def Obligations.StepReadsOnlyItsWord : Prop :=
  ∀ (s t : State) (p : Memory), p.len = s.prog.len →
    p.read s.pc.toNat = s.prog.read s.pc.toNat →
    (∀ k b0, k < 3 → s.prog.read s.pc.toNat = some b0 →
      (shape (byteToOpcode b0))[k]? ≠ some .unused →
      p.read (s.pc.toNat + 1 + k) = s.prog.read (s.pc.toNat + 1 + k)) →
    step s = .next t → step { s with prog := p } = .next { t with prog := p }

/-! ### LOAD and arithmetic (41_load.md, 42_arithmetic.md) -/

/-- R170, R83: LOAD completes on every valid destination, with the sign-extended big-endian immediate. -/
def Obligations.LoadWritesSignExtendedImmediate : Prop :=
  ∀ (d b2 b3 : Byte) (s : State) (h : d.toNat < nregs),
    decode [0x01, d, b2, b3] = .instr (.load d (b2 ++ b3)) ∧
    exec (.load d (b2 ++ b3)) s =
      .next { s with
        regs := s.regs.set d.toNat (BitVec.ofInt 32 (b2 ++ b3 : BitVec 16).toInt) h
        lastw := ⟨d.toNat, h⟩
        pc := s.pc + 4 }

/-- R180 to R183: at the default policy ADD, SUB and MUL complete on all register operands, source equal to
destination included, with the result modulo 2^32. -/
def Obligations.ArithmeticWraps : Prop :=
  ∀ (l r d : Byte) (s : State) (hl : l.toNat < nregs) (hr : r.toNat < nregs) (hd : d.toNat < nregs),
    let a := s.regs[l.toNat]
    let c := s.regs[r.toNat]
    let write (v : Word) : State :=
      { s with regs := s.regs.set d.toNat v hd, lastw := ⟨d.toNat, hd⟩, pc := s.pc + 4 }
    exec (.add l r d) s = .next (write (a + c)) ∧
    exec (.sub l r d) s = .next (write (a - c)) ∧
    exec (.mul l r d) s = .next (write (a * c))

/-- R180, R8: under `OVERFLOW_POLICY = fault`, an exact result outside [-2^31, 2^31) stops with FAULT_OVERFLOW
and detail 0; inside it the instruction does what it does under wrap. -/
def Obligations.FaultPolicyStopsOverflow : Prop :=
  ∀ (P : Params) (l r d : Byte) (s : State) (hl : l.toNat < nregs) (hr : r.toNat < nregs),
    d.toNat < nregs → P.overflowPolicy = .fault →
    let a := s.regs[l.toNat].toInt
    let c := s.regs[r.toNat].toInt
    ∀ p ∈ [(Instr.add l r d, a + c), (.sub l r d, a - c), (.mul l r d, a * c)],
      (-2147483648 ≤ p.2 ∧ p.2 ≤ 2147483647 → execWith P p.1 s = exec p.1 s) ∧
      (p.2 < -2147483648 ∨ 2147483647 < p.2 → execWith P p.1 s = .next { s with status := 0x0009 })

/-- R184, R185: where the divisor is not 0 and the division is not -2^31 / -1, DIV completes with the quotient
and remainder of the division law: `a = q * c + m`, `|m| < |c|`, and `m` is 0 or has the dividend's sign; the
quotient is representable. -/
def Obligations.DivFollowsTheDivisionLaw : Prop :=
  ∀ (l r d : Byte) (s : State) (hl : l.toNat < nregs) (hr : r.toNat < nregs) (hd : d.toNat < nregs),
    let a := s.regs[l.toNat].toInt
    let c := s.regs[r.toNat].toInt
    c ≠ 0 → ¬ (a = -2147483648 ∧ c = -1) →
    ∃ q m : Int, a = q * c + m ∧ |m| < |c| ∧ (m = 0 ∨ (m < 0 ↔ a < 0)) ∧
      -2147483648 ≤ q ∧ q ≤ 2147483647 ∧
      exec (.div l r d) s =
        .next { s with
          regs := s.regs.set d.toNat (BitVec.ofInt 32 q) hd
          rem := BitVec.ofInt 32 m
          lastw := ⟨d.toNat, hd⟩
          pc := s.pc + 4 }

/-- R184, R250: DIV by 0 and -2^31 / -1 stop with FAULT_DIV_ZERO and FAULT_DIV_OVERFLOW, detail `b2`, and write
neither the destination nor REM nor LASTW. -/
def Obligations.DivStops : Prop :=
  ∀ (l r d : Byte) (s : State) (hl : l.toNat < nregs) (hr : r.toNat < nregs), d.toNat < nregs →
    (s.regs[r.toNat] = 0 → exec (.div l r d) s = .next { s with status := r ++ (0x05 : Byte) }) ∧
    (s.regs[l.toNat] = 0x80000000 ∧ s.regs[r.toNat] = 0xFFFFFFFF →
      exec (.div l r d) s = .next { s with status := r ++ (0x06 : Byte) })

/-- 10_state.md R22, R30, R31: the frame of the instructions that write a register, over every form. A register
other than the destination keeps its value; FLAG, every program byte and every heap byte stay; REM changes for
DIV alone; LASTW is the destination or as before; STATUS changes only where the instruction stops, and then
nothing else does. -/
def Obligations.FrameOfRegisterWriters : Prop :=
  ∀ (l r d : Byte) (imm : Imm16) (i : Instr) (s t : State),
    i ∈ [Instr.load d imm, .add l r d, .sub l r d, .mul l r d, .div l r d] → exec i s = .next t →
    (∀ k : Fin nregs, k.val ≠ d.toNat → t.reg k = s.reg k) ∧
    t.flag = s.flag ∧
    (∀ a, t.heap.read a = s.heap.read a) ∧ (∀ a, t.prog.read a = s.prog.read a) ∧
    (i ≠ .div l r d → t.rem = s.rem) ∧
    (t.lastw = s.lastw ∨ t.lastw.val = d.toNat) ∧
    (t.status ≠ s.status → t = { s with status := t.status })

/-! ### Jumps (43_jump.md) -/

/-- R200 to R203: JMP, JMPF and JMPB complete on every valid register, with the relative base `s + 2`, modulo
2^32, and change `pc` alone. The second part is the same over the parameters, modulo 2^PC_BITS (R8; log entry 7:
how a target depends on another PC_BITS is the model's reading). -/
def Obligations.JumpsSetPc : Prop :=
  ∀ (r : Byte) (h : r.toNat < nregs),
    (∀ s : State,
      let x := s.regs[r.toNat].toNat
      exec (.jmp r) s = .next { s with pc := BitVec.ofNat 32 x } ∧
      exec (.jmpf r) s = .next { s with pc := BitVec.ofNat 32 ((s.pc.toNat + 2 + x) % 2 ^ 32) } ∧
      exec (.jmpb r) s =
        .next { s with pc := BitVec.ofInt 32 (((s.pc.toNat : Int) + 2 - x) % 2 ^ 32) }) ∧
    ∀ (pcBits : Nat) (P : Params) (s : State pcBits),
      let x := s.regs[r.toNat].toNat
      execWith P (.jmp r) s = .next { s with pc := BitVec.ofNat pcBits (x % 2 ^ pcBits) } ∧
      execWith P (.jmpf r) s =
        .next { s with pc := BitVec.ofNat pcBits ((s.pc.toNat + 2 + x) % 2 ^ pcBits) } ∧
      execWith P (.jmpb r) s =
        .next { s with pc := BitVec.ofInt pcBits (((s.pc.toNat : Int) + 2 - x) % 2 ^ pcBits) }

/-- R204: JEQ jumps when FLAG is set and goes to the next word when it is not, and leaves FLAG as it is; over
the parameters, a not-taken JEQ advances by `JEQ_NOT_TAKEN_ADVANCE` modulo 2^PC_BITS (log entry 7 for another
PC_BITS). -/
def Obligations.JeqFollowsFlag : Prop :=
  ∀ (r : Byte) (h : r.toNat < nregs),
    (∀ s : State,
      (s.flag = true → exec (.jeq r) s = .next { s with pc := s.regs[r.toNat] }) ∧
      (s.flag = false → exec (.jeq r) s = .next { s with pc := s.pc + 4 })) ∧
    ∀ (pcBits : Nat) (P : Params) (s : State pcBits),
      (s.flag = true →
        execWith P (.jeq r) s = .next { s with pc := BitVec.ofNat pcBits s.regs[r.toNat].toNat }) ∧
      (s.flag = false →
        execWith P (.jeq r) s = .next { s with pc := s.pc + BitVec.ofNat pcBits P.jeqNotTakenAdvance })

/-- The frame of the four jumps over every form: all but `pc` and STATUS stay; STATUS changes only where the
jump stops (a bad register byte), and then `pc` stays too. -/
def Obligations.FrameOfJumps : Prop :=
  ∀ (r : Byte) (i : Instr) (s t : State), i ∈ [Instr.jmp r, .jmpf r, .jmpb r, .jeq r] →
    exec i s = .next t →
    (∀ k, t.reg k = s.reg k) ∧ t.flag = s.flag ∧ t.rem = s.rem ∧ t.lastw = s.lastw ∧
    (∀ a, t.heap.read a = s.heap.read a) ∧ (∀ a, t.prog.read a = s.prog.read a) ∧
    (t.status ≠ s.status → t.pc = s.pc)

/-- R200, R202, R203: in a state that meets the invariants of R40, a jump to a negative absolute target, or a
relative jump to below offset 0, leads to an offset at or beyond `L`: it completes and is not a fault. -/
def Obligations.NegativeTargetsComplete : Prop :=
  ∀ (r : Byte) (s : State) (h : r.toNat < nregs), Inv s → s.pc.toNat < s.prog.len →
    let x := s.regs[r.toNat].toInt
    (x < 0 → ∃ t, exec (.jmp r) s = .next t ∧ s.prog.len ≤ t.pc.toNat ∧ t.status = s.status) ∧
    ((s.pc.toNat : Int) + 2 + x < 0 →
      ∃ t, exec (.jmpf r) s = .next t ∧ s.prog.len ≤ t.pc.toNat ∧ t.status = s.status) ∧
    ((s.pc.toNat : Int) + 2 - x < 0 →
      ∃ t, exec (.jmpb r) s = .next t ∧ s.prog.len ≤ t.pc.toNat ∧ t.status = s.status)

/-- R28: in a state that meets the invariants, a sequential advance from any `s < L` never wraps. -/
def Obligations.SequentialAdvanceNeverWraps : Prop :=
  ∀ s : State, Inv s → s.pc.toNat < s.prog.len → (advance s).pc.toNat = s.pc.toNat + 4

/-- R201's corner case, R153: a JMP to itself is a hang: the run from it never ends, whatever the fuel. -/
def Obligations.JumpToItselfHangs : Prop :=
  ∀ (s : State) (r b2 b3 : Byte) (h : r.toNat < nregs), s.stopped = false →
    s.prog.read s.pc.toNat = some 0x06 → s.prog.read (s.pc.toNat + 1) = some r →
    s.prog.read (s.pc.toNat + 2) = some b2 → s.prog.read (s.pc.toNat + 3) = some b3 →
    s.regs[r.toNat] = s.pc →
    Hangs s ∧ ¬ ∃ t res, RunEnds s t res

/-! ### Comparisons (44_compare.md) -/

/-- R220 to R226: the six comparisons complete on all valid registers; each overwrites FLAG with its relation
on the signed values, left operand `b1`, and goes to the next word. -/
def Obligations.ComparisonsSetFlag : Prop :=
  ∀ (l r : Byte) (s : State) (hl : l.toNat < nregs) (hr : r.toNat < nregs),
    let a := s.regs[l.toNat].toInt
    let c := s.regs[r.toNat].toInt
    let write (v : Bool) : State := { s with flag := v, pc := s.pc + 4 }
    exec (.eq l r) s = .next (write (decide (a = c))) ∧
    exec (.neq l r) s = .next (write (decide (a ≠ c))) ∧
    exec (.gt l r) s = .next (write (decide (c < a))) ∧
    exec (.lt l r) s = .next (write (decide (a < c))) ∧
    exec (.gteq l r) s = .next (write (decide (c ≤ a))) ∧
    exec (.lteq l r) s = .next (write (decide (a ≤ c)))

/-- The frame of the six comparisons over every form: no general register, LASTW, REM, heap or program byte
changes, and FLAG and `pc` stay too where the comparison stops. -/
def Obligations.FrameOfComparisons : Prop :=
  ∀ (l r : Byte) (i : Instr) (s t : State),
    i ∈ [Instr.eq l r, .neq l r, .gt l r, .lt l r, .gteq l r, .lteq l r] → exec i s = .next t →
    (∀ k, t.reg k = s.reg k) ∧ t.rem = s.rem ∧ t.lastw = s.lastw ∧
    (∀ a, t.heap.read a = s.heap.read a) ∧ (∀ a, t.prog.read a = s.prog.read a) ∧
    (t.status ≠ s.status → t.flag = s.flag ∧ t.pc = s.pc)

/-! ### ALLOC (45_alloc.md, 20_memory.md) -/

/-- R240, R58: ALLOC of a count that is not negative and fits completes: HEAP_LEN grows by exactly the count,
the new bytes are 0, the old ones stay, `pc` goes to the next word, all else is unchanged; from any heap. -/
def Obligations.AllocGrowsByZeros : Prop :=
  ∀ (r : Byte) (s : State) (h : r.toNat < nregs) (n : Nat),
    s.regs[r.toNat].toInt = n → s.heap.len + n ≤ 2147483647 →
    ∃ t, exec (.alloc r) s = .next t ∧
      t = { s with heap := t.heap, pc := s.pc + 4 } ∧
      t.heap.len = s.heap.len + n ∧
      (∀ a, a < s.heap.len → t.heap.read a = s.heap.read a) ∧
      (∀ a, s.heap.len ≤ a → a < s.heap.len + n → t.heap.read a = some 0)

/-- R240, R59, R250: a negative count stops with FAULT_NEG_ALLOC, a growth past HEAP_MAX with FAULT_HEAP_LIMIT,
each with detail `b1` and nothing else changed. -/
def Obligations.AllocStops : Prop :=
  ∀ (r : Byte) (s : State) (h : r.toNat < nregs),
    let n := s.regs[r.toNat].toInt
    (n < 0 → exec (.alloc r) s = .next { s with status := r ++ (0x07 : Byte) }) ∧
    (0 ≤ n → 2147483647 < (s.heap.len : Int) + n →
      exec (.alloc r) s = .next { s with status := r ++ (0x08 : Byte) })

/-- The frame of ALLOC over every form: no register, flag, REM, LASTW or program byte changes, and every heap
byte outside the `x[r]` bytes from HEAP_LEN on reads as before. -/
def Obligations.FrameOfAlloc : Prop :=
  ∀ (r : Byte) (s t : State), exec (.alloc r) s = .next t →
    (∀ k, t.reg k = s.reg k) ∧ t.flag = s.flag ∧ t.rem = s.rem ∧ t.lastw = s.lastw ∧
    (∀ a, t.prog.read a = s.prog.read a) ∧
    (t.status ≠ s.status → t = { s with status := t.status }) ∧
    (∀ a, (∀ h : r.toNat < nregs, ¬ (s.heap.len ≤ a ∧ a < s.heap.len + (s32 (s.reg ⟨r.toNat, h⟩)).toNat)) →
      t.heap.read a = s.heap.read a)

/-! ### Whole-machine rules (10_state.md, 20_memory.md) -/

/-- R29: only the six comparisons change FLAG. -/
def Obligations.OnlyComparisonsChangeFlag : Prop :=
  ∀ s t : State, step s = .next t → t.flag ≠ s.flag →
    ∃ i, fetch params s = .instr i ∧ opcodeOf i ∈ [Opcode.eq, .neq, .gt, .lt, .gteq, .lteq]

/-- R30: only DIV changes REM, and a DIV that stops does not. -/
def Obligations.OnlyDivChangesRem : Prop :=
  ∀ s t : State, step s = .next t → t.rem ≠ s.rem →
    t.stopped = false ∧ ∃ l r d, fetch params s = .instr (.div l r d)

/-- R22, R31: only LOAD, ADD, SUB, MUL and DIV change a general register or LASTW, and afterwards LASTW names
every register that changed. -/
def Obligations.OnlyLoadAndArithmeticChangeRegisters : Prop :=
  ∀ s t : State, step s = .next t → (t.regs ≠ s.regs ∨ t.lastw ≠ s.lastw) →
    (∃ i, fetch params s = .instr i ∧ opcodeOf i ∈ [Opcode.load, .add, .sub, .mul, .div]) ∧
    ∀ k, t.reg k ≠ s.reg k → k = t.lastw

/-- R33, R57, R53: only ALLOC changes the heap, the heap never shrinks and keeps its bytes; no step changes the
program. -/
def Obligations.HeapOnlyGrowsAndProgramStays : Prop :=
  ∀ s t : State, step s = .next t →
    t.prog = s.prog ∧ s.heap.len ≤ t.heap.len ∧
    (∀ a, a < s.heap.len → t.heap.read a = s.heap.read a) ∧
    (t.heap ≠ s.heap → ∃ r, fetch params s = .instr (.alloc r))

/-- The canonical form is one form: two canonical stores of one length that read the same everywhere are
equal (log entry 4: the model's representation of the stores). -/
def Obligations.CanonicalStoresAreEqual : Prop :=
  ∀ m m' : Memory, m.wf = true → m'.wf = true → m.len = m'.len → (∀ a, m.read a = m'.read a) → m = m'

/-! ### Stops (60_exceptions.md) -/

/-- R34, R250: the fields STATUS records for each cause: the code in CAUSE, 0 in the reserved bits, the detail
byte in DETAIL. -/
def Obligations.StatusRecordsTheStop : Prop :=
  ∀ (b : Byte) (s : State) (p : Cause × Nat),
    p ∈ [(Cause.halted, 1), (.illegalOpcode, 2), (.faultTruncated, 3), (.faultRegIndex, 4), (.faultDivZero, 5),
      (.faultDivOverflow, 6), (.faultNegAlloc, 7), (.faultHeapLimit, 8), (.faultOverflow, 9)] →
    ∃ t, raiseStop p.1 b s = .next t ∧ t.status.toNat = b.toNat * 256 + p.2 ∧
      t.cause.toNat = p.2 ∧ t.statusReserved = 0 ∧ t.detail = b ∧ t.stopped = true

/-- R251: every stop is precise: a step that stops a running block changes STATUS alone, so the state is that
after the last instruction that completed, with `pc` at the instruction that stopped. -/
def Obligations.StopsArePrecise : Prop :=
  ∀ s t : State, s.stopped = false → step s = .next t → t.stopped = true →
    t = { s with status := t.status }

/-- R253: one step reports one cause, the first that applies: HALT, then ILLEGAL, then truncation, then the
first bad register byte (here on a word whose four bytes lie in the program), then DIV's zero check before its
overflow check (here 0 wins whatever the dividend) and ALLOC's sign check before its limit. -/
def Obligations.StopPriority : Prop :=
  ∀ (s : State) (b0 : Byte), s.stopped = false → s.prog.read s.pc.toNat = some b0 →
    (b0 = 0x00 → step s = .next { s with status := 0x0001 }) ∧
    (0x11 ≤ b0.toNat → step s = .next { s with status := b0 ++ (0x02 : Byte) }) ∧
    (b0 ≠ 0x00 → b0.toNat < 0x11 → s.prog.len < s.pc.toNat + 4 →
      step s = .next { s with status := b0 ++ (0x03 : Byte) }) ∧
    ∀ b1 b2 b3, s.prog.read (s.pc.toNat + 1) = some b1 → s.prog.read (s.pc.toNat + 2) = some b2 →
      s.prog.read (s.pc.toNat + 3) = some b3 →
      (∀ b, b0 ≠ 0x00 → b0.toNat < 0x11 →
        (List.zip (shape (byteToOpcode b0)) [b1, b2, b3]).find?
          (fun p => p.1 == .reg && decide (32 ≤ p.2.toNat)) = some (.reg, b) →
        step s = .next { s with status := b ++ (0x04 : Byte) }) ∧
      (b0 = 0x05 → b1.toNat < 32 → ∀ h2 : b2.toNat < 32, b3.toNat < 32 → s.regs[b2.toNat] = 0 →
        step s = .next { s with status := b2 ++ (0x05 : Byte) }) ∧
      (b0 = 0x10 → ∀ h1 : b1.toNat < 32, s.regs[b1.toNat].toInt < 0 →
        step s = .next { s with status := b1 ++ (0x07 : Byte) })

/-- R35, R252: a stop is terminal: every host operation but reset, made on a stopped block, leaves it as it was
but for bytes appended to its program. -/
def Obligations.StopsAreTerminal : Prop :=
  ∀ (op : HostOp) (s t : State) (reply : HostReply), s.stopped = true → op ≠ .reset →
    HostStep op s t reply →
    t.stopped = true ∧ ∃ bs, t = { s with prog := s.prog.appendList bs }

/-- R264: a run that ends normally does not end in a fail-stop, and every cause but HALTED is a fail-stop. -/
def Obligations.NormalEndsAreNoFailStops : Prop :=
  (∀ s t : State, RunsNormally s t → isFailStop t.status = false) ∧
  ∀ (c : Cause) (b : Byte) (s : State), c ≠ .halted → isFailStop (stopState c b s).status = true

/-! ### Reset and invariants (70_reset_and_hazards.md, 10_state.md) -/

/-- R280, R281: the reset value of every element, and that a step taken at once returns COMPLETED. -/
def Obligations.ResetState : Prop :=
  (∀ k, State.reset.reg k = 0) ∧ State.reset.pc = 0 ∧ State.reset.flag = false ∧ State.reset.rem = 0 ∧
  State.reset.lastw = 0 ∧ State.reset.out = 0 ∧ State.reset.status = 0 ∧ State.reset.heap.len = 0 ∧
  State.reset.prog.len = 0 ∧ (∀ a, State.reset.heap.read a = none ∧ State.reset.prog.read a = none) ∧
  step State.reset = .next State.reset ∧ stepResult State.reset = .completed

/-- The invariants of R40 hold at reset. -/
def Obligations.InvariantsHoldAtReset : Prop := Inv State.reset

/-- Headline: every step keeps the invariants of R40 (heap bounds and zero heap bytes, program bound, legal
STATUS), from every state that meets them; and so over every value of the parameters of R8, with their bounds. -/
def Obligations.StepKeepsInvariants : Prop :=
  (∀ s t : State, Inv s → step s = .next t → Inv t) ∧
  ∀ (pcBits : Nat) (P : Params) (s t : State pcBits), Inv s P → stepWith P s = .next t → Inv t P

/-- Headline, R40: the invariants hold in every state the host can bring the block to from reset, by any
sequence of its operations. -/
def Obligations.ReachableStatesMeetInvariants : Prop := ∀ s : State, Reachable s → Inv s

/-! ### Runs and the host interface (40_dispatch.md) -/

/-- R152, R153: the relation and the executor agree: a run ends at a state with a result exactly when some
fuel suffices for the executor to report it; running out of fuel is never reported as an end. -/
def Obligations.RunMatchesTheExecutor : Prop :=
  ∀ (s t : State) (r : StepResult), RunEnds s t r ↔ ∃ fuel, runFuel fuel s = .ended t r

/-- R162, R163, R53: `append_byte` puts the byte at offset `L`, `append_word` its four bytes at `L` to `L + 3` in
order; `L` grows by 1 and 4; each is refused exactly when it would pass PROG_MAX. Bytes already appended stay,
nothing else changes, and STATUS may be anything. -/
def Obligations.AppendsExtendProgram : Prop :=
  ∀ s : State, s.prog.wf = true →
    (∀ b : Byte,
      (s.prog.len < 2147483648 → ∃ t, appendByte b s = some t ∧ t = { s with prog := t.prog } ∧
        t.prog.len = s.prog.len + 1 ∧ t.prog.read s.prog.len = some b ∧
        ∀ a, a < s.prog.len → t.prog.read a = s.prog.read a) ∧
      (2147483648 ≤ s.prog.len → appendByte b s = none)) ∧
    ∀ w : InstrWord,
      (s.prog.len + 4 ≤ 2147483648 → ∃ t, appendWord w s = some t ∧ t = { s with prog := t.prog } ∧
        t.prog.len = s.prog.len + 4 ∧
        t.prog.read s.prog.len = some w.b0 ∧ t.prog.read (s.prog.len + 1) = some w.b1 ∧
        t.prog.read (s.prog.len + 2) = some w.b2 ∧ t.prog.read (s.prog.len + 3) = some w.b3 ∧
        ∀ a, a < s.prog.len → t.prog.read a = s.prog.read a) ∧
      (2147483648 < s.prog.len + 4 → appendWord w s = none)

/-- R167, R126: `assemble_and_append` appends all words of a successful invocation that fit, in order, and
otherwise changes nothing and says why. -/
def Obligations.AssembleAndAppendIsAllOrNothing : Prop :=
  ∀ (text : List Char) (s : State), s.prog.wf = true →
    (∀ f, assembleText text = .fault f → assembleAndAppend text s = (s, .syntaxFault f)) ∧
    ∀ ws, assembleText text = .words ws →
      (2147483648 < s.prog.len + 4 * ws.length → assembleAndAppend text s = (s, .refused)) ∧
      (s.prog.len + 4 * ws.length ≤ 2147483648 → ∃ t, assembleAndAppend text s = (t, .done) ∧
        t = { s with prog := t.prog } ∧ t.prog.len = s.prog.len + 4 * ws.length ∧
        (∀ a, a < s.prog.len → t.prog.read a = s.prog.read a) ∧
        ∀ k w, ws[k]? = some w → ∀ j b, w.bytes[j]? = some b →
          t.prog.read (s.prog.len + 4 * k + j) = some b)

/-- R143, R283: completion is not stored: a running block at the end of its program runs the word the host
appends next. -/
def Obligations.AppendedWordRunsNext : Prop :=
  ∀ (w : InstrWord) (i : Instr) (s t : State), s.prog.wf = true → s.stopped = false →
    s.pc.toNat = s.prog.len → decode w.bytes = .instr i → appendWord w s = some t → step t = exec i t

/-- R8: at the spec's values of the parameters, the machine over the parameters is the machine. -/
def Obligations.ParametersDefaultToTheSpec : Prop :=
  ∀ (i : Instr) (s : State), execWith params i s = exec i s ∧ stepWith params s = step s

/-! ### Lexer and assembler (30_encoding.md) -/

/-- R112, R110: every text gives a finite token sequence that ends in its one `End`. -/
def Obligations.LexingEndsInEnd : Prop :=
  ∀ text : List Char, ∃ ts, lex text = ts ++ [.eof] ∧ Token.eof ∉ ts

/-- R102: whitespace before a token is skipped. -/
def Obligations.LexingSkipsWhitespace : Prop :=
  ∀ ws text : List Char, (∀ c ∈ ws, c ∈ [' ', '\t', '\n', '\r']) → lex (ws ++ text) = lex text

/-- R103, R104, R107, R108: a sigil with its maximal run of digits is one token: a register up to 255, an integer
up to 32767, else one ILLEGAL covering the whole literal; a sigil with no digit is one ILLEGAL for the sigil
alone. -/
def Obligations.SigilLiterals : Prop :=
  (∀ ds rest : List Char, ds ≠ [] → (∀ c ∈ ds, '0'.toNat ≤ c.toNat ∧ c.toNat ≤ '9'.toNat) →
    (∀ c, rest.head? = some c → ¬ ('0'.toNat ≤ c.toNat ∧ c.toNat ≤ '9'.toNat)) →
    let n := Nat.ofDigits 10 (ds.reverse.map fun c => c.toNat - '0'.toNat)
    pullToken ('$' :: (ds ++ rest)) =
      (if n ≤ 255 then .register (BitVec.ofNat 8 n) else .operator .illegal, rest) ∧
    pullToken ('#' :: (ds ++ rest)) =
      (if n ≤ 32767 then .integer (BitVec.ofNat 16 n) else .operator .illegal, rest)) ∧
  ∀ rest : List Char, (∀ c, rest.head? = some c → ¬ ('0'.toNat ≤ c.toNat ∧ c.toNat ≤ '9'.toNat)) →
    pullToken ('$' :: rest) = (.operator .illegal, rest) ∧
    pullToken ('#' :: rest) = (.operator .illegal, rest)

/-- R105, R106, R109: a maximal run of letters and underscores is one operator; a maximal run of digits with no
sigil is one ILLEGAL; any other character that is neither whitespace nor a sigil is one ILLEGAL. -/
def Obligations.IdentifiersAndOtherCharacters : Prop :=
  let letter (c : Char) : Prop := ('A'.toNat ≤ c.toNat ∧ c.toNat ≤ 'Z'.toNat) ∨
    ('a'.toNat ≤ c.toNat ∧ c.toNat ≤ 'z'.toNat) ∨ c = '_'
  let digit (c : Char) : Prop := '0'.toNat ≤ c.toNat ∧ c.toNat ≤ '9'.toNat
  (∀ cs rest : List Char, cs ≠ [] → (∀ c ∈ cs, letter c) → (∀ c, rest.head? = some c → ¬ letter c) →
    pullToken (cs ++ rest) = (.operator (mnemonicToOpcode cs), rest)) ∧
  (∀ ds rest : List Char, ds ≠ [] → (∀ c ∈ ds, digit c) → (∀ c, rest.head? = some c → ¬ digit c) →
    pullToken (ds ++ rest) = (.operator .illegal, rest)) ∧
  ∀ (c : Char) (rest : List Char), ¬ letter c → ¬ digit c →
    c ∉ [' ', '\t', '\n', '\r', '$', '#'] → pullToken (c :: rest) = (.operator .illegal, rest)

/-- R117 to R122: the word each assembler shape emits, unused bytes 0 and the immediate big-endian, in front of
what the tokens after it assemble to. -/
def Obligations.ShapesAssemble : Prop :=
  ∀ (x y z : Byte) (v : Imm16) (ts : List Token),
    assemble (.operator .halt :: ts) = (assemble ts).cons ⟨0x00, 0, 0, 0⟩ ∧
    assemble (.operator .illegal :: ts) = (assemble ts).cons ⟨0xFF, 0, 0, 0⟩ ∧
    assemble (.operator .load :: .register x :: .integer v :: ts) = (assemble ts).cons
      ⟨0x01, x, BitVec.ofNat 8 (v.toNat / 256), BitVec.ofNat 8 (v.toNat % 256)⟩ ∧
    (∀ p ∈ [(Opcode.add, (0x02 : Byte)), (.sub, 0x03), (.mul, 0x04), (.div, 0x05)],
      assemble (.operator p.1 :: .register x :: .register y :: .register z :: ts) =
        (assemble ts).cons ⟨p.2, x, y, z⟩) ∧
    (∀ p ∈ [(Opcode.jmp, (0x06 : Byte)), (.jmpf, 0x07), (.jmpb, 0x08), (.jeq, 0x0F)],
      assemble (.operator p.1 :: .register x :: ts) = (assemble ts).cons ⟨p.2, x, 0, 0⟩) ∧
    ∀ p ∈ [(Opcode.eq, (0x09 : Byte)), (.neq, 0x0A), (.gt, 0x0B), (.lt, 0x0C), (.gteq, 0x0D), (.lteq, 0x0E)],
      assemble (.operator p.1 :: .register x :: .register y :: ts) = (assemble ts).cons ⟨p.2, x, y, 0⟩

/-- R116, R123, R124: the first token that is not of the kind its position needs makes the invocation fail with
the reason for that token's kind, whatever follows; and by R125 a fault met after complete instructions is the
fault of the whole invocation, their words dropped. (An ALLOC token's shape is the model's choice: log entry
12.) -/
def Obligations.SyntaxFaultReasons : Prop :=
  let fits (k : OperandKind) (t : Token) : Prop :=
    (k = .register ∧ ∃ x, t = .register x) ∨ (k = .integer ∧ ∃ v, t = .integer v)
  (∀ ts x, assemble (.register x :: ts) = .fault .operandWhereOperatorExpected) ∧
  (∀ ts v, assemble (.integer v :: ts) = .fault .operandWhereOperatorExpected) ∧
  (∀ (op : Opcode) (pre ts : List Token) (f : SyntaxFault),
    List.Forall₂ fits (asmShape op) pre → assemble ts = .fault f →
    assemble (.operator op :: (pre ++ ts)) = .fault f) ∧
  ∀ (op : Opcode) (before after : List OperandKind) (k : OperandKind) (pre ts : List Token),
    asmShape op = before ++ k :: after → List.Forall₂ fits before pre →
    assemble (.operator op :: pre) = .fault .prematureEnd ∧
    assemble (.operator op :: (pre ++ .eof :: ts)) = .fault .prematureEnd ∧
    (∀ op', assemble (.operator op :: (pre ++ .operator op' :: ts)) = .fault .operatorInOperandPosition) ∧
    (k = .register → ∀ v,
      assemble (.operator op :: (pre ++ .integer v :: ts)) = .fault .integerWhereRegisterExpected) ∧
    (k = .integer → ∀ x,
      assemble (.operator op :: (pre ++ .register x :: ts)) = .fault .registerWhereIntegerExpected)

/-- R80, R91, R131: every word of a successful invocation, on any tokens, is the word of an instruction with its
unused bytes 0, register numbers up to 255 included. -/
def Obligations.AssembledWordsAreEncodings : Prop :=
  ∀ (ts : List Token) (ws : List InstrWord), assemble ts = .words ws →
    ∀ w ∈ ws, ∃ i, wellFormed i = true ∧ w.bytes = encode i ∧ decode w.bytes = .instr i

/-- R130: no text assembles to an ALLOC word. -/
def Obligations.NoTextAssemblesToAlloc : Prop :=
  ∀ (text : List Char) (ws : List InstrWord), assembleText text = .words ws →
    ∀ w ∈ ws, w.b0 ≠ 0x10

/-- R132: the two worked texts through the whole pipeline. -/
def Obligations.PipelineWorkedTexts : Prop :=
  lex "load $0 #500".toList = [.operator .load, .register 0, .integer 500, .eof] ∧
  assembleText "load $0 #500".toList = .words [⟨1, 0, 1, 244⟩] ∧
  assembleText "add $0 #1 $2".toList = .fault .integerWhereRegisterExpected
end

