-- ==== Sys2Proof/Laws/State.lean ====
section
/-! SUPPORT. One lemma for each field of State after each named update, true by definition, so that no proof
unfolds a record update; and how the computed reads follow from the fields. -/

namespace Sys2Proof.Machine

variable {pcBits : Nat}

/-! ### After `setPc` -/

@[simp] theorem setPc_regs (t : Pc pcBits) (s : State pcBits) : (setPc t s).regs = s.regs := rfl
@[simp] theorem setPc_pc (t : Pc pcBits) (s : State pcBits) : (setPc t s).pc = t := rfl
@[simp] theorem setPc_flag (t : Pc pcBits) (s : State pcBits) : (setPc t s).flag = s.flag := rfl
@[simp] theorem setPc_rem (t : Pc pcBits) (s : State pcBits) : (setPc t s).rem = s.rem := rfl
@[simp] theorem setPc_lastw (t : Pc pcBits) (s : State pcBits) : (setPc t s).lastw = s.lastw := rfl
@[simp] theorem setPc_status (t : Pc pcBits) (s : State pcBits) : (setPc t s).status = s.status := rfl
@[simp] theorem setPc_heap (t : Pc pcBits) (s : State pcBits) : (setPc t s).heap = s.heap := rfl
@[simp] theorem setPc_prog (t : Pc pcBits) (s : State pcBits) : (setPc t s).prog = s.prog := rfl
@[simp] theorem setPc_reg (t : Pc pcBits) (s : State pcBits) (k : Fin nregs) : (setPc t s).reg k = s.reg k := rfl
@[simp] theorem setPc_cause (t : Pc pcBits) (s : State pcBits) : (setPc t s).cause = s.cause := rfl
@[simp] theorem setPc_stopped (t : Pc pcBits) (s : State pcBits) : (setPc t s).stopped = s.stopped := rfl

/-! ### After `advance` -/

@[simp] theorem advance_regs (s : State pcBits) : (advance s).regs = s.regs := rfl
@[simp] theorem advance_pc (s : State pcBits) : (advance s).pc = s.pc + 4 := rfl
@[simp] theorem advance_flag (s : State pcBits) : (advance s).flag = s.flag := rfl
@[simp] theorem advance_rem (s : State pcBits) : (advance s).rem = s.rem := rfl
@[simp] theorem advance_lastw (s : State pcBits) : (advance s).lastw = s.lastw := rfl
@[simp] theorem advance_status (s : State pcBits) : (advance s).status = s.status := rfl
@[simp] theorem advance_heap (s : State pcBits) : (advance s).heap = s.heap := rfl
@[simp] theorem advance_prog (s : State pcBits) : (advance s).prog = s.prog := rfl
@[simp] theorem advance_reg (s : State pcBits) (k : Fin nregs) : (advance s).reg k = s.reg k := rfl
@[simp] theorem advance_cause (s : State pcBits) : (advance s).cause = s.cause := rfl
@[simp] theorem advance_stopped (s : State pcBits) : (advance s).stopped = s.stopped := rfl

/-! ### After `setFlag` -/

@[simp] theorem setFlag_regs (v : Bool) (s : State pcBits) : (setFlag v s).regs = s.regs := rfl
@[simp] theorem setFlag_pc (v : Bool) (s : State pcBits) : (setFlag v s).pc = s.pc := rfl
@[simp] theorem setFlag_flag (v : Bool) (s : State pcBits) : (setFlag v s).flag = v := rfl
@[simp] theorem setFlag_rem (v : Bool) (s : State pcBits) : (setFlag v s).rem = s.rem := rfl
@[simp] theorem setFlag_lastw (v : Bool) (s : State pcBits) : (setFlag v s).lastw = s.lastw := rfl
@[simp] theorem setFlag_status (v : Bool) (s : State pcBits) : (setFlag v s).status = s.status := rfl
@[simp] theorem setFlag_heap (v : Bool) (s : State pcBits) : (setFlag v s).heap = s.heap := rfl
@[simp] theorem setFlag_prog (v : Bool) (s : State pcBits) : (setFlag v s).prog = s.prog := rfl
@[simp] theorem setFlag_reg (v : Bool) (s : State pcBits) (k : Fin nregs) : (setFlag v s).reg k = s.reg k := rfl
@[simp] theorem setFlag_cause (v : Bool) (s : State pcBits) : (setFlag v s).cause = s.cause := rfl
@[simp] theorem setFlag_stopped (v : Bool) (s : State pcBits) : (setFlag v s).stopped = s.stopped := rfl

/-! ### After `setRem` -/

@[simp] theorem setRem_regs (v : Word) (s : State pcBits) : (setRem v s).regs = s.regs := rfl
@[simp] theorem setRem_pc (v : Word) (s : State pcBits) : (setRem v s).pc = s.pc := rfl
@[simp] theorem setRem_flag (v : Word) (s : State pcBits) : (setRem v s).flag = s.flag := rfl
@[simp] theorem setRem_rem (v : Word) (s : State pcBits) : (setRem v s).rem = v := rfl
@[simp] theorem setRem_lastw (v : Word) (s : State pcBits) : (setRem v s).lastw = s.lastw := rfl
@[simp] theorem setRem_status (v : Word) (s : State pcBits) : (setRem v s).status = s.status := rfl
@[simp] theorem setRem_heap (v : Word) (s : State pcBits) : (setRem v s).heap = s.heap := rfl
@[simp] theorem setRem_prog (v : Word) (s : State pcBits) : (setRem v s).prog = s.prog := rfl
@[simp] theorem setRem_reg (v : Word) (s : State pcBits) (k : Fin nregs) : (setRem v s).reg k = s.reg k := rfl
@[simp] theorem setRem_cause (v : Word) (s : State pcBits) : (setRem v s).cause = s.cause := rfl
@[simp] theorem setRem_stopped (v : Word) (s : State pcBits) : (setRem v s).stopped = s.stopped := rfl

/-! ### After `writeDest` -/

@[simp] theorem writeDest_regs (d : Fin nregs) (v : Word) (s : State pcBits) : (writeDest d v s).regs = s.regs.set d v := rfl
@[simp] theorem writeDest_pc (d : Fin nregs) (v : Word) (s : State pcBits) : (writeDest d v s).pc = s.pc := rfl
@[simp] theorem writeDest_flag (d : Fin nregs) (v : Word) (s : State pcBits) : (writeDest d v s).flag = s.flag := rfl
@[simp] theorem writeDest_rem (d : Fin nregs) (v : Word) (s : State pcBits) : (writeDest d v s).rem = s.rem := rfl
@[simp] theorem writeDest_lastw (d : Fin nregs) (v : Word) (s : State pcBits) : (writeDest d v s).lastw = d := rfl
@[simp] theorem writeDest_status (d : Fin nregs) (v : Word) (s : State pcBits) : (writeDest d v s).status = s.status := rfl
@[simp] theorem writeDest_heap (d : Fin nregs) (v : Word) (s : State pcBits) : (writeDest d v s).heap = s.heap := rfl
@[simp] theorem writeDest_prog (d : Fin nregs) (v : Word) (s : State pcBits) : (writeDest d v s).prog = s.prog := rfl
@[simp] theorem writeDest_cause (d : Fin nregs) (v : Word) (s : State pcBits) : (writeDest d v s).cause = s.cause := rfl
@[simp] theorem writeDest_stopped (d : Fin nregs) (v : Word) (s : State pcBits) : (writeDest d v s).stopped = s.stopped := rfl

/-! ### After `stopState` -/

@[simp] theorem stopState_regs (c : Cause) (b : Byte) (s : State pcBits) : (stopState c b s).regs = s.regs := rfl
@[simp] theorem stopState_pc (c : Cause) (b : Byte) (s : State pcBits) : (stopState c b s).pc = s.pc := rfl
@[simp] theorem stopState_flag (c : Cause) (b : Byte) (s : State pcBits) : (stopState c b s).flag = s.flag := rfl
@[simp] theorem stopState_rem (c : Cause) (b : Byte) (s : State pcBits) : (stopState c b s).rem = s.rem := rfl
@[simp] theorem stopState_lastw (c : Cause) (b : Byte) (s : State pcBits) : (stopState c b s).lastw = s.lastw := rfl
@[simp] theorem stopState_status (c : Cause) (b : Byte) (s : State pcBits) : (stopState c b s).status = stopStatus c b := rfl
@[simp] theorem stopState_heap (c : Cause) (b : Byte) (s : State pcBits) : (stopState c b s).heap = s.heap := rfl
@[simp] theorem stopState_prog (c : Cause) (b : Byte) (s : State pcBits) : (stopState c b s).prog = s.prog := rfl
@[simp] theorem stopState_reg (c : Cause) (b : Byte) (s : State pcBits) (k : Fin nregs) : (stopState c b s).reg k = s.reg k := rfl

/-! ### After `heapGrow` -/

@[simp] theorem heapGrow_regs (n : Nat) (s : State pcBits) : (heapGrow n s).regs = s.regs := rfl
@[simp] theorem heapGrow_pc (n : Nat) (s : State pcBits) : (heapGrow n s).pc = s.pc := rfl
@[simp] theorem heapGrow_flag (n : Nat) (s : State pcBits) : (heapGrow n s).flag = s.flag := rfl
@[simp] theorem heapGrow_rem (n : Nat) (s : State pcBits) : (heapGrow n s).rem = s.rem := rfl
@[simp] theorem heapGrow_lastw (n : Nat) (s : State pcBits) : (heapGrow n s).lastw = s.lastw := rfl
@[simp] theorem heapGrow_status (n : Nat) (s : State pcBits) : (heapGrow n s).status = s.status := rfl
@[simp] theorem heapGrow_heap (n : Nat) (s : State pcBits) : (heapGrow n s).heap = s.heap.appendZeros n := rfl
@[simp] theorem heapGrow_prog (n : Nat) (s : State pcBits) : (heapGrow n s).prog = s.prog := rfl
@[simp] theorem heapGrow_reg (n : Nat) (s : State pcBits) (k : Fin nregs) : (heapGrow n s).reg k = s.reg k := rfl
@[simp] theorem heapGrow_cause (n : Nat) (s : State pcBits) : (heapGrow n s).cause = s.cause := rfl
@[simp] theorem heapGrow_stopped (n : Nat) (s : State pcBits) : (heapGrow n s).stopped = s.stopped := rfl

/-! ### After `appendWords` -/

@[simp] theorem appendWords_regs (ws : List InstrWord) (s : State pcBits) : (appendWords ws s).regs = s.regs := rfl
@[simp] theorem appendWords_pc (ws : List InstrWord) (s : State pcBits) : (appendWords ws s).pc = s.pc := rfl
@[simp] theorem appendWords_flag (ws : List InstrWord) (s : State pcBits) : (appendWords ws s).flag = s.flag := rfl
@[simp] theorem appendWords_rem (ws : List InstrWord) (s : State pcBits) : (appendWords ws s).rem = s.rem := rfl
@[simp] theorem appendWords_lastw (ws : List InstrWord) (s : State pcBits) : (appendWords ws s).lastw = s.lastw := rfl
@[simp] theorem appendWords_status (ws : List InstrWord) (s : State pcBits) : (appendWords ws s).status = s.status := rfl
@[simp] theorem appendWords_heap (ws : List InstrWord) (s : State pcBits) : (appendWords ws s).heap = s.heap := rfl
@[simp] theorem appendWords_prog (ws : List InstrWord) (s : State pcBits) : (appendWords ws s).prog = s.prog.appendList (ws.flatMap InstrWord.bytes) := rfl
@[simp] theorem appendWords_reg (ws : List InstrWord) (s : State pcBits) (k : Fin nregs) : (appendWords ws s).reg k = s.reg k := rfl
@[simp] theorem appendWords_cause (ws : List InstrWord) (s : State pcBits) : (appendWords ws s).cause = s.cause := rfl
@[simp] theorem appendWords_stopped (ws : List InstrWord) (s : State pcBits) : (appendWords ws s).stopped = s.stopped := rfl

/-! ### After `placeAtPc` -/

@[simp] theorem placeAtPc_regs (bs : List Byte) (s : State pcBits) : (placeAtPc bs s).regs = s.regs := rfl
@[simp] theorem placeAtPc_pc (bs : List Byte) (s : State pcBits) : (placeAtPc bs s).pc = s.pc := rfl
@[simp] theorem placeAtPc_flag (bs : List Byte) (s : State pcBits) : (placeAtPc bs s).flag = s.flag := rfl
@[simp] theorem placeAtPc_rem (bs : List Byte) (s : State pcBits) : (placeAtPc bs s).rem = s.rem := rfl
@[simp] theorem placeAtPc_lastw (bs : List Byte) (s : State pcBits) : (placeAtPc bs s).lastw = s.lastw := rfl
@[simp] theorem placeAtPc_status (bs : List Byte) (s : State pcBits) : (placeAtPc bs s).status = 0 := rfl
@[simp] theorem placeAtPc_heap (bs : List Byte) (s : State pcBits) : (placeAtPc bs s).heap = s.heap := rfl
@[simp] theorem placeAtPc_prog (bs : List Byte) (s : State pcBits) : (placeAtPc bs s).prog = s.prog.place s.pc.toNat bs := rfl
@[simp] theorem placeAtPc_reg (bs : List Byte) (s : State pcBits) (k : Fin nregs) : (placeAtPc bs s).reg k = s.reg k := rfl

/-! ### Reset and the width of `pc` -/

/-- A register value as a jump's target is the value itself at the spec's `PC_BITS` (R200). -/
@[simp] theorem jumpValue_eq (v : Word) : (jumpValue v : Pc) = v := BitVec.setWidth_eq v

/-- A register value as a jump's target, as a number, at every `PC_BITS`. -/
theorem jumpValue_toNat (v : Word) : (jumpValue v : Pc pcBits).toNat = v.toNat % 2 ^ pcBits :=
  BitVec.toNat_setWidth ..

@[simp] theorem resetAt_regs : (State.resetAt pcBits).regs = Vector.replicate nregs 0 := rfl
@[simp] theorem resetAt_pc : (State.resetAt pcBits).pc = 0 := rfl
@[simp] theorem resetAt_flag : (State.resetAt pcBits).flag = false := rfl
@[simp] theorem resetAt_rem : (State.resetAt pcBits).rem = 0 := rfl
@[simp] theorem resetAt_lastw : (State.resetAt pcBits).lastw = 0 := rfl
@[simp] theorem resetAt_status : (State.resetAt pcBits).status = 0 := rfl
@[simp] theorem resetAt_heap : (State.resetAt pcBits).heap = ⟨[], 0⟩ := rfl
@[simp] theorem resetAt_prog : (State.resetAt pcBits).prog = ⟨[], 0⟩ := rfl

/-- Reset at the spec's `PC_BITS` is reset. -/
@[simp] theorem resetAt_eq : State.resetAt 32 = State.reset := rfl

/-! ### The computed reads -/

/-- A written register reads as the value written; every other register reads as before. -/
theorem writeDest_reg (d : Fin nregs) (v : Word) (s : State pcBits) (k : Fin nregs) :
    (writeDest d v s).reg k = if k = d then v else s.reg k := by
  simp only [State.reg, writeDest_regs, Fin.getElem_fin, Vector.getElem_set, Fin.ext_iff, eq_comm]

/-- The output after a write is the value written (R32). -/
@[simp] theorem writeDest_out (d : Fin nregs) (v : Word) (s : State pcBits) : (writeDest d v s).out = v := by
  simp [State.out, writeDest_reg]

/-- STATUS after a stop: CAUSE is the cause's code (R251). -/
@[simp] theorem stopState_cause (c : Cause) (b : Byte) (s : State pcBits) : (stopState c b s).cause = c.code := by
  unfold State.cause; rw [stopState_status]; unfold stopStatus
  ext i hi
  simp only [BitVec.getElem_extractLsb', BitVec.getLsbD_append]
  rw [if_pos (by omega), Nat.zero_add, BitVec.getLsbD_eq_getElem hi]

/-- STATUS after a stop: DETAIL is the detail byte (R251). -/
@[simp] theorem stopState_detail (c : Cause) (b : Byte) (s : State pcBits) : (stopState c b s).detail = b := by
  unfold State.detail; rw [stopState_status]; unfold stopStatus
  ext i hi
  simp only [BitVec.getElem_extractLsb', BitVec.getLsbD_append]
  rw [if_neg (by omega), if_neg (by omega), show 8 + i - 4 - 4 = i by omega, BitVec.getLsbD_eq_getElem hi]

/-- STATUS after a stop: the reserved bits are 0 (R34). -/
@[simp] theorem stopState_reserved (c : Cause) (b : Byte) (s : State pcBits) :
    (stopState c b s).statusReserved = 0 := by
  unfold State.statusReserved; rw [stopState_status]; unfold stopStatus
  ext i hi
  simp only [BitVec.getElem_extractLsb', BitVec.getLsbD_append]
  rw [if_neg (by omega), if_pos (by omega)]
  simp

/-- No cause's code is RUNNING's. -/
theorem code_ne_zero (c : Cause) : c.code ≠ 0 := by cases c <;> decide

/-- A stop leaves the block stopped (R35). -/
@[simp] theorem stopState_stopped (c : Cause) (b : Byte) (s : State pcBits) : (stopState c b s).stopped = true := by
  unfold State.stopped; rw [stopState_cause]; exact bne_iff_ne.mpr (code_ne_zero c)

/-- Whether the block is at the end depends on the program's length and `pc` alone. -/
theorem atEnd_iff (s : State pcBits) : s.atEnd = true ↔ s.prog.len ≤ s.pc.toNat := by simp [State.atEnd]

end Sys2Proof.Machine
end

