-- ==== Sys2Proof/Laws/Exec.lean ====
section
/-! SUPPORT. The shared operations of the meanings, each with the lemma that says all it can do, and `exec_cases`:
what running any instruction leads to. Proofs cite these and do not unfold the operations. -/

namespace Sys2Proof.Machine

variable {pcBits : Nat}

/-- `t` is `s` stopped: STATUS is written and nothing else (R251). -/
def IsStop (s t : State pcBits) : Prop := ∃ c b, t = stopState c b s

@[simp] theorem raiseStop_eq (c : Cause) (b : Byte) (s : State pcBits) :
    raiseStop c b s = .next (stopState c b s) := rfl

/-! ### Operands -/

theorem withReg_of_lt {b : Byte} {s : State pcBits} {k : Fin nregs → Outcome pcBits} (h : b.toNat < nregs) :
    withReg b s k = k ⟨b.toNat, h⟩ := dif_pos h

theorem withReg_of_ge {b : Byte} {s : State pcBits} {k : Fin nregs → Outcome pcBits} (h : nregs ≤ b.toNat) :
    withReg b s k = .next (stopState .faultRegIndex b s) := dif_neg (by omega)

/-- A register operand: the stop for a byte of 32 or more, else the continuation at that register. -/
theorem withReg_cases (b : Byte) (s : State pcBits) (k : Fin nregs → Outcome pcBits) :
    (∃ h : b.toNat < nregs, withReg b s k = k ⟨b.toNat, h⟩) ∨
      (nregs ≤ b.toNat ∧ withReg b s k = .next (stopState .faultRegIndex b s)) := by
  by_cases h : b.toNat < nregs
  · exact .inl ⟨h, withReg_of_lt h⟩
  · exact .inr ⟨by omega, withReg_of_ge (by omega)⟩

/-- Under the wrap policy an exact result is always a pattern (R180). -/
@[simp] theorem narrow_wrap (z : Int) : narrow .wrap z = some (wrap32 z) := rfl

/-- Under the fault policy an exact result is a pattern exactly when it is in range (R180). -/
theorem narrow_fault (z : Int) :
    narrow .fault z = if -2 ^ 31 ≤ z ∧ z < 2 ^ 31 then some (wrap32 z) else none := by
  simp [narrow, inSignedRange]

/-! ### What each shape of instruction can do -/

/-- The effect of an instruction that completes, its result values left open: which registers and flags it
writes and where `pc` goes. -/
def Effect (i : Instr) (s t : State pcBits) (P : Params := params) : Prop :=
  match i with
  | .hlt | .illegal _ => False
  | .load d _ | .add _ _ d | .sub _ _ d | .mul _ _ d =>
    ∃ k v, k.val = d.toNat ∧ t = advance (writeDest k v s)
  | .div _ _ d => ∃ k v m, k.val = d.toNat ∧ t = advance (setRem m (writeDest k v s))
  | .eq _ _ | .neq _ _ | .gt _ _ | .lt _ _ | .gteq _ _ | .lteq _ _ => ∃ v, t = advance (setFlag v s)
  | .jmp _ | .jmpf _ | .jmpb _ | .jeq _ => ∃ p, t = setPc p s
  | .alloc r => ∃ k : Fin nregs, k.val = r.toNat ∧ 0 ≤ s32 (s.reg k) ∧
      s.heap.len + (s32 (s.reg k)).toNat ≤ P.heapMax ∧
      t = advance (heapGrow (s32 (s.reg k)).toNat s)

/-- A meaning answers a next state, in which the block is stopped with nothing else changed, or the instruction
has had its effect `E`. -/
def Does (o : Outcome pcBits) (s : State pcBits) (E : State pcBits → Prop) : Prop :=
  ∃ t, o = .next t ∧ (IsStop s t ∨ E t)

theorem does_stop (s : State pcBits) (E : State pcBits → Prop) (c : Cause) (b : Byte) :
    Does (.next (stopState c b s)) s E := ⟨_, rfl, .inl ⟨c, b, rfl⟩⟩

theorem does_next {s t : State pcBits} {E : State pcBits → Prop} (h : E t) : Does (.next t) s E :=
  ⟨t, rfl, .inr h⟩

/-- A register operand in front of a continuation keeps `Does`. -/
theorem does_withReg {b : Byte} {s : State pcBits} {k : Fin nregs → Outcome pcBits} {E : State pcBits → Prop}
    (h : ∀ j : Fin nregs, j.val = b.toNat → Does (k j) s E) : Does (withReg b s k) s E := by
  rcases withReg_cases b s k with ⟨hb, e⟩ | ⟨-, e⟩
  · rw [e]; exact h _ rfl
  · rw [e]; exact does_stop ..

/-- ADD, SUB and MUL under either policy (R180). -/
theorem binaryOp_cases (p : OverflowPolicy) (f : Int → Int → Int) (l r d : Byte) (s : State pcBits) :
    Does (binaryOp p f l r d s) s fun t => ∃ k v, k.val = d.toNat ∧ t = advance (writeDest k v s) := by
  refine does_withReg fun i _ => does_withReg fun j _ => does_withReg fun k hk => ?_
  cases narrow p (f (s32 (s.reg i)) (s32 (s.reg j))) with
  | none => exact does_stop ..
  | some v => exact does_next ⟨k, v, hk, rfl⟩

/-- The six comparisons (R220). -/
theorem compareRegs_cases (rel : Word → Word → Bool) (l r : Byte) (s : State pcBits) :
    Does (compareRegs rel l r s) s fun t => ∃ v, t = advance (setFlag v s) :=
  does_withReg fun _ _ => does_withReg fun _ _ => does_next ⟨_, rfl⟩

/-- Running any instruction, over every value of the parameters, answers a next state: a stop that changes
STATUS alone, or the instruction's effect. -/
theorem execWith_cases (P : Params) (i : Instr) (s : State pcBits) :
    Does (execWith P i s) s fun t => Effect i s t P := by
  cases i with
  | hlt => exact does_stop ..
  | illegal b0 => exact does_stop ..
  | load d imm =>
    unfold execWith execLoad
    exact does_withReg fun k hk => does_next ⟨k, _, hk, rfl⟩
  | add l r d => exact binaryOp_cases P.overflowPolicy (fun a c => a + c) l r d s
  | sub l r d => exact binaryOp_cases P.overflowPolicy (fun a c => a - c) l r d s
  | mul l r d => exact binaryOp_cases P.overflowPolicy (fun a c => a * c) l r d s
  | div l r d =>
    unfold execWith divWith
    refine does_withReg fun i _ => does_withReg fun j _ => does_withReg fun k hk => ?_
    dsimp only
    split
    · exact does_stop ..
    · split
      · exact does_stop ..
      · exact does_next ⟨k, _, _, hk, rfl⟩
  | jmp r =>
    unfold execWith execJmp
    exact does_withReg fun k _ => does_next ⟨_, rfl⟩
  | jmpf r =>
    unfold execWith execJmpf
    exact does_withReg fun k _ => does_next ⟨_, rfl⟩
  | jmpb r =>
    unfold execWith execJmpb
    exact does_withReg fun k _ => does_next ⟨_, rfl⟩
  | eq l r => exact compareRegs_cases relEq l r s
  | neq l r => exact compareRegs_cases relNeq l r s
  | gt l r => exact compareRegs_cases relGt l r s
  | lt l r => exact compareRegs_cases relLt l r s
  | gteq l r => exact compareRegs_cases relGteq l r s
  | lteq l r => exact compareRegs_cases relLteq l r s
  | jeq r =>
    unfold execWith jeqWith
    refine does_withReg fun k _ => ?_
    split <;> exact does_next ⟨_, rfl⟩
  | alloc r =>
    unfold execWith allocWith
    refine does_withReg fun k hk => ?_
    dsimp only
    split
    · exact does_stop ..
    · split
      · exact does_stop ..
      · exact does_next ⟨k, hk, by omega, by omega, rfl⟩

/-- At the spec's parameters the parametric meaning is the meaning. -/
theorem execWith_params (i : Instr) (s : State) : execWith params i s = exec i s := by cases i <;> rfl

/-- The same at the spec's parameters. -/
theorem exec_cases (i : Instr) (s : State) : Does (exec i s) s fun t => Effect i s t :=
  execWith_params i s ▸ execWith_cases params i s

/-- The same, from a known next state. -/
theorem execWith_next {P : Params} {i : Instr} {s t : State pcBits} (h : execWith P i s = .next t) :
    IsStop s t ∨ Effect i s t P := by
  obtain ⟨t', ht, hc⟩ := execWith_cases P i s
  rw [ht] at h
  cases h
  exact hc

theorem exec_next {i : Instr} {s t : State} (h : exec i s = .next t) : IsStop s t ∨ Effect i s t :=
  execWith_next ((execWith_params i s).trans h)

end Sys2Proof.Machine
end

