-- ==== Sys2Proof/Laws/Memory.lean ====
section
/-! SUPPORT. The two byte stores: what a read gives after each operation, and that every operation keeps the
canonical form. -/

namespace Sys2Proof.Machine

/-! ### Cells -/

/-- A canonical list stays canonical under a lower start and a higher end. -/
theorem canonical_mono {hi hi' : Nat} (hh : hi ≤ hi') :
    ∀ {cells : List Host.Cell} {lo lo' : Nat}, lo' ≤ lo →
      Memory.canonical hi lo cells = true → Memory.canonical hi' lo' cells = true
  | [], _, _, _, _ => rfl
  | (a, v) :: rest, lo, lo', hl, h => by
    simp only [Memory.canonical, Bool.and_eq_true, decide_eq_true_eq] at h ⊢
    exact ⟨⟨⟨by omega, by omega⟩, h.1.2⟩, canonical_mono hh le_rfl h.2⟩

/-- A canonical list says nothing below its start. -/
theorem lookup_of_lt {hi : Nat} :
    ∀ {cells : List Host.Cell} {lo a : Nat}, a < lo → Memory.canonical hi lo cells = true →
      Memory.lookup cells a = Memory.unlisted
  | [], _, _, _, _ => rfl
  | (k, v) :: rest, lo, a, ha, h => by
    simp only [Memory.canonical, Bool.and_eq_true, decide_eq_true_eq] at h
    rw [Memory.lookup, if_neg (by omega)]
    exact lookup_of_lt (by omega) h.2

/-- A canonical list says nothing at or above its end. -/
theorem lookup_of_ge {hi : Nat} :
    ∀ {cells : List Host.Cell} {lo a : Nat}, hi ≤ a → Memory.canonical hi lo cells = true →
      Memory.lookup cells a = Memory.unlisted
  | [], _, _, _, _ => rfl
  | (k, v) :: rest, lo, a, ha, h => by
    simp only [Memory.canonical, Bool.and_eq_true, decide_eq_true_eq] at h
    rw [Memory.lookup, if_neg (by omega)]
    exact lookup_of_ge ha h.2

/-- Read after write: the written offset gives the written byte, every other offset what it gave before. -/
theorem lookup_put {hi : Nat} :
    ∀ {cells : List Host.Cell} {lo : Nat}, Memory.canonical hi lo cells = true → ∀ a b x,
      Memory.lookup (Memory.put cells a b) x = if x = a then b else Memory.lookup cells x
  | [], _, _, a, b, x => by
    unfold Memory.put
    by_cases hb : b = Memory.unlisted <;> simp [hb, Memory.lookup, eq_comm]
  | (k, v) :: rest, lo, h, a, b, x => by
    simp only [Memory.canonical, Bool.and_eq_true, decide_eq_true_eq] at h
    unfold Memory.put
    by_cases h1 : a < k
    · have below : Memory.lookup ((k, v) :: rest) a = Memory.unlisted := by
        rw [Memory.lookup, if_neg (by omega)]
        exact lookup_of_lt (by omega) h.2
      by_cases hb : b = Memory.unlisted
      · rw [if_pos h1, if_pos hb]
        by_cases hx : x = a
        · rw [if_pos hx, hx, below, hb]
        · rw [if_neg hx]
      · rw [if_pos h1, if_neg hb, Memory.lookup]
        simp only [eq_comm]
    · by_cases h2 : a = k
      · subst h2
        by_cases hb : b = Memory.unlisted
        · rw [if_neg h1, if_pos rfl, if_pos hb]
          by_cases hx : x = a
          · rw [if_pos hx, hx, hb]
            exact lookup_of_lt (by omega) h.2
          · rw [if_neg hx, Memory.lookup, if_neg (by omega)]
        · rw [if_neg h1, if_pos rfl, if_neg hb, Memory.lookup, Memory.lookup]
          by_cases hx : x = a
          · rw [if_pos hx.symm, if_pos hx]
          · rw [if_neg (Ne.symm hx), if_neg hx, if_neg (Ne.symm hx)]
      · rw [if_neg h1, if_neg h2, Memory.lookup, Memory.lookup, lookup_put h.2]
        by_cases hk : k = x
        · rw [if_pos hk, if_neg (by omega), if_pos hk]
        · rw [if_neg hk, if_neg hk]

/-- A write below the end keeps the canonical form. -/
theorem canonical_put {hi : Nat} :
    ∀ {cells : List Host.Cell} {lo : Nat}, Memory.canonical hi lo cells = true → ∀ {a} (b : Byte),
      lo ≤ a → a < hi → Memory.canonical hi lo (Memory.put cells a b) = true
  | [], lo, _, a, b, hl, hh => by
    unfold Memory.put
    by_cases hb : b = Memory.unlisted
    · rw [if_pos hb]; rfl
    · rw [if_neg hb]
      simp [Memory.canonical, hl, hh, hb]
  | (k, v) :: rest, lo, h, a, b, hl, hh => by
    have h0 := h
    simp only [Memory.canonical, Bool.and_eq_true, decide_eq_true_eq] at h
    unfold Memory.put
    by_cases h1 : a < k
    · by_cases hb : b = Memory.unlisted
      · rw [if_pos h1, if_pos hb]; exact h0
      · rw [if_pos h1, if_neg hb]
        simp only [Memory.canonical, Bool.and_eq_true, decide_eq_true_eq]
        exact ⟨⟨⟨hl, hh⟩, by simpa using hb⟩, ⟨⟨by omega, h.1.1.2⟩, h.1.2⟩, h.2⟩
    · by_cases h2 : a = k
      · subst h2
        by_cases hb : b = Memory.unlisted
        · rw [if_neg h1, if_pos rfl, if_pos hb]
          exact canonical_mono le_rfl (by omega) h.2
        · rw [if_neg h1, if_pos rfl, if_neg hb]
          simp only [Memory.canonical, Bool.and_eq_true, decide_eq_true_eq]
          exact ⟨⟨⟨hl, hh⟩, by simpa using hb⟩, h.2⟩
      · rw [if_neg h1, if_neg h2]
        simp only [Memory.canonical, Bool.and_eq_true, decide_eq_true_eq]
        exact ⟨h.1, canonical_put h.2 b (by omega) hh⟩

/-- Dropping cells keeps the canonical form. -/
theorem canonical_filter {hi : Nat} (p : Host.Cell → Bool) :
    ∀ {cells : List Host.Cell} {lo : Nat}, Memory.canonical hi lo cells = true →
      Memory.canonical hi lo (cells.filter p) = true
  | [], _, _ => rfl
  | (a, v) :: rest, lo, h => by
    simp only [Memory.canonical, Bool.and_eq_true, decide_eq_true_eq] at h
    rw [List.filter_cons]
    split
    · simp only [Memory.canonical, Bool.and_eq_true, decide_eq_true_eq]
      exact ⟨h.1, canonical_filter p h.2⟩
    · exact canonical_mono le_rfl (by omega) (canonical_filter p h.2)

/-- What dropping the cells of some offsets leaves to read. -/
theorem lookup_filter (p : Nat → Bool) (x : Nat) :
    ∀ cells : List Host.Cell, Memory.lookup (cells.filter fun c => p c.1) x =
      if p x then Memory.lookup cells x else Memory.unlisted
  | [] => by simp [Memory.lookup]
  | (k, v) :: rest => by
    rw [List.filter_cons]
    by_cases hp : p k = true
    · simp only [hp, if_true, Memory.lookup, lookup_filter p x rest]
      by_cases hk : k = x
      · subst hk; simp [hp]
      · simp [hk]
    · rw [if_neg hp, lookup_filter p x rest, Memory.lookup]
      by_cases hk : k = x
      · subst hk; simp [hp]
      · rw [if_neg hk]

/-! ### Stores -/

/-- There is no byte at or above the length. -/
theorem read_of_ge {m : Memory} {a : Nat} (h : m.len ≤ a) : m.read a = none := if_neg (by omega)

/-- There is a byte at every offset below the length. -/
theorem read_of_lt {m : Memory} {a : Nat} (h : a < m.len) :
    m.read a = some (Memory.lookup m.cells a) := if_pos h

/-- A byte is read exactly at an offset below the length. -/
theorem lt_of_read {m : Memory} {a : Nat} {b : Byte} (h : m.read a = some b) : a < m.len := by
  by_contra hn
  rw [read_of_ge (by omega)] at h
  cases h

/-- The append of a byte keeps the canonical form. -/
theorem wf_append {m : Memory} (h : m.wf = true) (b : Byte) : (m.append b).wf = true :=
  canonical_put (canonical_mono (Nat.le_succ _) le_rfl h) b (Nat.zero_le _) (Nat.lt_succ_self _)

/-- An append leaves the bytes there are and puts the new one at the end (R162, R53). -/
theorem read_append {m : Memory} (h : m.wf = true) (b : Byte) (a : Nat) :
    (m.append b).read a = if a = m.len then some b else m.read a := by
  unfold Memory.read Memory.append
  simp only [lookup_put h]
  by_cases ha : a = m.len
  · subst ha; simp
  · simp only [if_neg ha]
    by_cases hl : a < m.len
    · rw [if_pos (by omega), if_pos hl]
    · rw [if_neg (by omega), if_neg hl]

@[simp] theorem appendList_len (m : Memory) (bs : List Byte) :
    (m.appendList bs).len = m.len + bs.length := by
  induction bs generalizing m with
  | nil => rfl
  | cons b bs ih => rw [Memory.appendList, ih]; simp only [Memory.append, List.length_cons]; omega

/-- Appending bytes keeps the canonical form. -/
theorem wf_appendList {m : Memory} (h : m.wf = true) (bs : List Byte) : (m.appendList bs).wf = true := by
  induction bs generalizing m with
  | nil => exact h
  | cons b bs ih => exact ih (wf_append h b)

/-- Appended bytes stand at the end in order, and the bytes there were stay (R163, R53). -/
theorem read_appendList {m : Memory} (h : m.wf = true) (bs : List Byte) (a : Nat) :
    (m.appendList bs).read a = if a < m.len then m.read a else bs[a - m.len]? := by
  induction bs generalizing m with
  | nil =>
    by_cases ha : a < m.len
    · rw [if_pos ha]; rfl
    · rw [if_neg ha, List.getElem?_nil]; exact read_of_ge (m := m) (by omega)
  | cons b bs ih =>
    rw [Memory.appendList, ih (wf_append h b), read_append h]
    have hlen : (m.append b).len = m.len + 1 := rfl
    rw [hlen]
    rcases lt_trichotomy a m.len with ha | ha | ha
    · rw [if_pos (by omega), if_neg (by omega), if_pos ha]
    · subst ha; simp
    · rw [if_neg (by omega), if_neg (by omega), show a - m.len = (a - (m.len + 1)) + 1 by omega,
        List.getElem?_cons_succ]

/-- Growing by zeros keeps the canonical form (R58). -/
theorem wf_appendZeros {m : Memory} (h : m.wf = true) (n : Nat) : (m.appendZeros n).wf = true :=
  canonical_filter _ (canonical_mono (Nat.le_add_right _ _) le_rfl h)

/-- Growing by zeros: the bytes there were stay, the new ones are 0 (R57, R58). In every state, canonical or
not. -/
theorem read_appendZeros (m : Memory) (n a : Nat) :
    (m.appendZeros n).read a =
      if a < m.len then m.read a else if a < m.len + n then some 0 else none := by
  unfold Memory.read Memory.appendZeros
  simp only [lookup_filter (fun x => decide (x < m.len ∨ m.len + n ≤ x)), decide_eq_true_eq]
  by_cases h1 : a < m.len
  · rw [if_pos (by omega), if_pos h1, if_pos (Or.inl h1), if_pos h1]
  · by_cases h2 : a < m.len + n
    · rw [if_pos h2, if_neg h1, if_pos h2, if_neg (by omega)]; rfl
    · rw [if_neg h2, if_neg h1, if_neg h2]

/-- The empty store is canonical. -/
theorem wf_empty : (⟨[], 0⟩ : Memory).wf = true := rfl

/-- Placing bytes keeps the canonical form. -/
theorem wf_place {m : Memory} (h : m.wf = true) (a : Nat) (bs : List Byte) : (m.place a bs).wf = true := by
  have go : ∀ (bs : List Byte) (cells : List Host.Cell) (a hi : Nat), a + bs.length ≤ hi →
      Memory.canonical hi 0 cells = true → Memory.canonical hi 0 (Memory.putList cells a bs) = true := by
    intro bs
    induction bs with
    | nil => intro _ _ _ _ hc; exact hc
    | cons b bs ih =>
      intro cells a hi hh hc
      simp only [List.length_cons] at hh
      exact ih _ _ _ (by omega) (canonical_put hc b (Nat.zero_le _) (by omega))
  exact go bs m.cells a _ (Nat.le_max_right _ _) (canonical_mono (Nat.le_max_left _ _) le_rfl h)

end Sys2Proof.Machine
end

