-- ==== Sys2Proof/Laws/PerInstr.lean ====
section
/-! SUPPORT. Facts about every instruction as syntax, one lemma per constructor. -/

namespace Sys2Proof.Laws

/-- The register bytes the shape of R85 marks are the register operands the instruction's fields hold, in slot
order, so the check of R146 examines exactly those. -/
def ShapeMarksRegisters.fieldsOf : Instr → List Byte
  | .hlt | .illegal _ => []
  | .load d _ => [d]
  | .add l r d | .sub l r d | .mul l r d | .div l r d => [l, r, d]
  | .eq l r | .neq l r | .gt l r | .lt l r | .gteq l r | .lteq l r => [l, r]
  | .jmp r | .jmpf r | .jmpb r | .jeq r | .alloc r => [r]

/-- The family `ShapeMarksRegisters`: an instruction's shape marks exactly its register operands, and its word
is four bytes (R80, R85). -/
def ShapeMarksRegisters.Statement (i : Instr) : Prop :=
  regOperands i = ShapeMarksRegisters.fieldsOf i ∧ (encode i).length = 4

theorem ShapeMarksRegisters.hlt : ShapeMarksRegisters.Statement .hlt := ⟨rfl, rfl⟩
theorem ShapeMarksRegisters.load (d : Byte) (imm : Imm16) :
    ShapeMarksRegisters.Statement (.load d imm) := ⟨rfl, rfl⟩
theorem ShapeMarksRegisters.add (l r d : Byte) :
    ShapeMarksRegisters.Statement (.add l r d) := ⟨rfl, rfl⟩
theorem ShapeMarksRegisters.sub (l r d : Byte) :
    ShapeMarksRegisters.Statement (.sub l r d) := ⟨rfl, rfl⟩
theorem ShapeMarksRegisters.mul (l r d : Byte) :
    ShapeMarksRegisters.Statement (.mul l r d) := ⟨rfl, rfl⟩
theorem ShapeMarksRegisters.div (l r d : Byte) :
    ShapeMarksRegisters.Statement (.div l r d) := ⟨rfl, rfl⟩
theorem ShapeMarksRegisters.jmp (r : Byte) :
    ShapeMarksRegisters.Statement (.jmp r) := ⟨rfl, rfl⟩
theorem ShapeMarksRegisters.jmpf (r : Byte) :
    ShapeMarksRegisters.Statement (.jmpf r) := ⟨rfl, rfl⟩
theorem ShapeMarksRegisters.jmpb (r : Byte) :
    ShapeMarksRegisters.Statement (.jmpb r) := ⟨rfl, rfl⟩
theorem ShapeMarksRegisters.eq (l r : Byte) :
    ShapeMarksRegisters.Statement (.eq l r) := ⟨rfl, rfl⟩
theorem ShapeMarksRegisters.neq (l r : Byte) :
    ShapeMarksRegisters.Statement (.neq l r) := ⟨rfl, rfl⟩
theorem ShapeMarksRegisters.gt (l r : Byte) :
    ShapeMarksRegisters.Statement (.gt l r) := ⟨rfl, rfl⟩
theorem ShapeMarksRegisters.lt (l r : Byte) :
    ShapeMarksRegisters.Statement (.lt l r) := ⟨rfl, rfl⟩
theorem ShapeMarksRegisters.gteq (l r : Byte) :
    ShapeMarksRegisters.Statement (.gteq l r) := ⟨rfl, rfl⟩
theorem ShapeMarksRegisters.lteq (l r : Byte) :
    ShapeMarksRegisters.Statement (.lteq l r) := ⟨rfl, rfl⟩
theorem ShapeMarksRegisters.jeq (r : Byte) :
    ShapeMarksRegisters.Statement (.jeq r) := ⟨rfl, rfl⟩
theorem ShapeMarksRegisters.alloc (r : Byte) :
    ShapeMarksRegisters.Statement (.alloc r) := ⟨rfl, rfl⟩
theorem ShapeMarksRegisters.illegal (b0 : Byte) :
    ShapeMarksRegisters.Statement (.illegal b0) := ⟨rfl, rfl⟩

end Sys2Proof.Laws
end

