-- ==== Sys2Proof/Laws/Step.lean ====
section
/-! SUPPORT. Fetch and the step: what is fetched from the bytes at `pc`, and `step_cases`, everything a step can
do. -/

namespace Sys2Proof.Machine

variable {pcBits : Nat}

/-! ### Fetch -/

/-- The bytes fetched, written out: the four reads at `pc`, those past the end left out. -/
theorem fetchBytes_eq (s : State pcBits) :
    fetchBytes s =
      (s.prog.read s.pc.toNat).toList ++ (s.prog.read (s.pc.toNat + 1)).toList ++
        (s.prog.read (s.pc.toNat + 2)).toList ++ (s.prog.read (s.pc.toNat + 3)).toList := by
  have h : (List.range 4) = [0, 1, 2, 3] := rfl
  unfold fetchBytes
  rw [h]
  simp only [List.filterMap_cons, List.filterMap_nil, Nat.add_zero]
  cases s.prog.read s.pc.toNat <;> cases s.prog.read (s.pc.toNat + 1) <;>
    cases s.prog.read (s.pc.toNat + 2) <;> cases s.prog.read (s.pc.toNat + 3) <;> rfl

/-- Not at the end, there is an opcode byte to fetch. -/
theorem read_pc {s : State pcBits} (h : s.atEnd = false) : ∃ b, s.prog.read s.pc.toNat = some b := by
  simp only [State.atEnd, decide_eq_false_iff_not, not_le] at h
  exact ⟨_, read_of_lt h⟩

/-- Not at the end, decoding never finds no byte (R144). -/
theorem fetch_ne_noByte {s : State pcBits} (h : s.atEnd = false) (P : Params) : fetch P s ≠ .noByte := by
  obtain ⟨b, hb⟩ := read_pc h
  intro hn
  unfold fetch at hn
  rw [fetchBytes_eq, hb] at hn
  simp only [Option.toList_some, List.cons_append, List.nil_append, List.append_assoc, decode] at hn
  split at hn
  · cases hn
  · split at hn <;> cases hn

/-- Decoding looks at the first four bytes at most: what follows an instruction does not change it. -/
theorem decode_append {bytes more : List Byte} {code : Opcode → Byte} {i : Instr}
    (h : decode bytes code = .instr i) : decode (bytes ++ more) code = .instr i := by
  match bytes, h with
  | b0 :: rest, h =>
    simp only [decode, List.cons_append] at h ⊢
    split at h
    · next hf => rw [if_pos hf]; exact h
    · next hf =>
      rw [if_neg hf]
      match rest, h with
      | b1 :: b2 :: b3 :: _, h => exact h

/-! ### The step -/

/-- At the spec's parameters the parametric step is the step. -/
theorem stepWith_params (s : State) : stepWith params s = step s := by
  unfold stepWith step runStep
  simp only [execWith_params]

/-- What a step of a block that is neither stopped nor at the end does (R144, R145, R147). -/
theorem stepWith_active {P : Params} {s : State pcBits} (h1 : s.stopped = false) (h2 : s.atEnd = false) :
    (∃ b0, fetch P s = .truncated b0 ∧ stepWith P s = .next (stopState .faultTruncated b0 s)) ∨
      ∃ i, fetch P s = .instr i ∧ stepWith P s = execWith P i s := by
  unfold stepWith runStep
  rw [h1, h2]
  cases hf : fetch P s with
  | noByte => exact absurd hf (fetch_ne_noByte h2 P)
  | truncated b0 => exact .inl ⟨b0, rfl, rfl⟩
  | instr i => exact .inr ⟨i, rfl, rfl⟩

/-- The same at the spec's parameters. -/
theorem step_active {s : State} (h1 : s.stopped = false) (h2 : s.atEnd = false) :
    (∃ b0, fetch params s = .truncated b0 ∧ step s = .next (stopState .faultTruncated b0 s)) ∨
      ∃ i, fetch params s = .instr i ∧ step s = exec i s := by
  simpa only [stepWith_params, execWith_params] using stepWith_active (P := params) h1 h2

/-- Everything a step can do, over every value of the parameters: nothing, in a stopped block (R141) or at the
end (R142); a stop (R251); or the effect of the instruction fetched (R147). -/
theorem stepWith_cases (P : Params) (s : State pcBits) : ∃ t, stepWith P s = .next t ∧
    ((s.stopped = true ∧ t = s) ∨
      (s.stopped = false ∧ s.atEnd = true ∧ t = s) ∨
      (s.stopped = false ∧ s.atEnd = false ∧ IsStop s t) ∨
      (s.stopped = false ∧ s.atEnd = false ∧
        ∃ i, fetch P s = .instr i ∧ execWith P i s = .next t ∧ Effect i s t P)) := by
  cases h1 : s.stopped with
  | true => exact ⟨s, by unfold stepWith runStep; rw [h1]; rfl, .inl ⟨rfl, rfl⟩⟩
  | false =>
    cases h2 : s.atEnd with
    | true => exact ⟨s, by unfold stepWith runStep; rw [h1, h2]; rfl, .inr (.inl ⟨rfl, rfl, rfl⟩)⟩
    | false =>
      rcases stepWith_active h1 h2 with ⟨b0, -, e⟩ | ⟨i, hi, e⟩
      · exact ⟨_, e, .inr (.inr (.inl ⟨rfl, rfl, .faultTruncated, b0, rfl⟩))⟩
      · obtain ⟨t, ht, hs | he⟩ := execWith_cases P i s
        · exact ⟨t, e.trans ht, .inr (.inr (.inl ⟨rfl, rfl, hs⟩))⟩
        · exact ⟨t, e.trans ht, .inr (.inr (.inr ⟨rfl, rfl, i, hi, ht, he⟩))⟩

/-- The same at the spec's parameters. -/
theorem step_cases (s : State) : ∃ t, step s = .next t ∧
    ((s.stopped = true ∧ t = s) ∨
      (s.stopped = false ∧ s.atEnd = true ∧ t = s) ∨
      (s.stopped = false ∧ s.atEnd = false ∧ IsStop s t) ∨
      (s.stopped = false ∧ s.atEnd = false ∧
        ∃ i, fetch params s = .instr i ∧ exec i s = .next t ∧ Effect i s t)) := by
  simpa only [stepWith_params, execWith_params] using stepWith_cases params s

/-- The state `afterStep` names is the one a step answers. -/
theorem afterStep_eq_of_stepWith {P : Params} {s t : State pcBits} (h : stepWith P s = .next t) :
    afterStep s P = t := by
  unfold afterStep; rw [h]

theorem afterStep_eq {s t : State} (h : step s = .next t) : afterStep s = t :=
  afterStep_eq_of_stepWith ((stepWith_params s).trans h)

/-- A step always answers a next state, so `afterStep` loses nothing. -/
theorem stepWith_next (P : Params) (s : State pcBits) : stepWith P s = .next (afterStep s P) := by
  obtain ⟨t, ht, -⟩ := stepWith_cases P s
  rw [afterStep_eq_of_stepWith ht, ht]

theorem step_next (s : State) : step s = .next (afterStep s) :=
  (stepWith_params s).symm.trans (stepWith_next params s)

end Sys2Proof.Machine
end

