-- ==== Sys2Proof/Laws/Text.lean ====
section
/-! SUPPORT. The lexer's and the assembler's pulls: each one takes something, so the fuel of `lex` and `assemble`
always suffices, and both unfold by one pull (`lex_eq`, `assemble_eq`). -/

namespace Sys2Proof.Machine

/-! ### The lexer -/

/-- A token that begins at a character is not `End` and leaves no more text than follows the character. -/
theorem tokenAt_takes (c : Char) (rest : List Char) :
    (tokenAt c rest).1 ≠ .eof ∧ (tokenAt c rest).2.length ≤ rest.length := by
  have sig : ∀ max (mk : Nat → Token), (∀ n, mk n ≠ .eof) →
      (sigilLiteral max mk rest).1 ≠ .eof ∧ (sigilLiteral max mk rest).2.length ≤ rest.length := by
    intro max mk hmk
    unfold sigilLiteral
    dsimp only
    split
    · exact ⟨by simp, le_rfl⟩
    · refine ⟨?_, (List.dropWhile_sublist _).length_le⟩
      dsimp only
      split
      · exact hmk _
      · simp
  unfold tokenAt
  split
  · exact sig _ _ (by simp)
  · split
    · exact sig _ _ (by simp)
    · split
      · exact ⟨by simp, (List.dropWhile_sublist _).length_le⟩
      · split
        · exact ⟨by simp, (List.dropWhile_sublist _).length_le⟩
        · exact ⟨by simp, le_rfl⟩

/-- A pull gives `End` with nothing left, or a token that is not `End` and strictly less text (R100, R110). -/
theorem pullToken_cases (text : List Char) :
    pullToken text = (.eof, []) ∨
      ((pullToken text).1 ≠ .eof ∧ (pullToken text).2.length < text.length) := by
  unfold pullToken
  have hle : (text.dropWhile isWhitespace).length ≤ text.length := (List.dropWhile_sublist _).length_le
  cases h : text.dropWhile isWhitespace with
  | nil => exact .inl rfl
  | cons c rest =>
    rw [h, List.length_cons] at hle
    have ht := tokenAt_takes c rest
    exact .inr ⟨ht.1, by dsimp only; omega⟩

/-- More pulls than there are characters add nothing. -/
theorem lexFrom_eq_lex : ∀ (n : Nat) (text : List Char), text.length ≤ n → lexFrom n text = lex text := by
  have key : ∀ (n m : Nat) (text : List Char), text.length ≤ n → text.length ≤ m →
      lexFrom n text = lexFrom m text := by
    intro n
    induction n with
    | zero =>
      intro m text hn hm
      have : text = [] := List.eq_nil_of_length_eq_zero (by omega)
      subst this
      cases m <;> rfl
    | succ n ih =>
      intro m text hn hm
      cases m with
      | zero =>
        have : text = [] := List.eq_nil_of_length_eq_zero (by omega)
        subst this
        rfl
      | succ m =>
        rcases pullToken_cases text with h | ⟨h1, h2⟩
        · simp only [lexFrom, h]
        · unfold lexFrom
          cases hp : pullToken text with
          | mk t rest =>
            rw [hp] at h1 h2
            dsimp only at h1 h2
            cases t <;> first | rfl | exact congrArg _ (ih m rest (by omega) (by omega))
  exact fun n text h => key n _ text h le_rfl

/-- The token sequence by one pull (R100): `End` alone, or a token and the sequence of the text after it. -/
theorem lex_eq (text : List Char) :
    lex text = if (pullToken text).1 = .eof then [.eof]
      else (pullToken text).1 :: lex (pullToken text).2 := by
  rcases pullToken_cases text with h | ⟨h1, h2⟩
  · rw [if_pos (by rw [h]), ← lexFrom_eq_lex (text.length + 1) text (Nat.le_succ _)]
    simp only [lexFrom, h]
  · rw [if_neg h1, ← lexFrom_eq_lex (text.length + 1) text (Nat.le_succ _),
      ← lexFrom_eq_lex text.length (pullToken text).2 (by omega)]
    rw [lexFrom]
    cases hp : pullToken text with
    | mk t rest =>
      rw [hp] at h1
      cases t <;> first | rfl | exact absurd rfl h1

/-! ### The assembler -/

/-- Reading operands leaves no more tokens than there were. -/
theorem readOperands_length :
    ∀ (ks : List OperandKind) (ts : List Token) {bytes rest},
      readOperands ks ts = .ok (bytes, rest) → rest.length ≤ ts.length
  | [], ts, _, _, h => by cases h; exact le_rfl
  | k :: ks, ts, bytes, rest, h => by
    have hn : (nextToken ts).2.length ≤ ts.length := by cases ts <;> simp [nextToken]
    unfold readOperands at h
    cases h1 : takeOperand k (nextToken ts).1 with
    | error f => rw [h1] at h; cases h
    | ok b =>
      rw [h1] at h
      cases h2 : readOperands ks (nextToken ts).2 with
      | error f => rw [h2] at h; cases h
      | ok p =>
        obtain ⟨more, rest'⟩ := p
        rw [h2] at h
        cases h
        exact (readOperands_length ks _ h2).trans hn

/-- A pull that yields a word takes at least one token, and the token is the word's operator (R116). -/
theorem pullInstr_word {ts : List Token} {code : Opcode → Byte} {w : InstrWord} {rest : List Token}
    (h : pullInstr ts code = (.word w, rest)) :
    ∃ op more bytes, ts = .operator op :: more ∧ readOperands (asmShape op) more = .ok (bytes, rest) ∧
      w = emitWord op bytes code := by
  match ts, h with
  | .operator op :: more, h =>
    simp only [pullInstr, nextToken] at h
    cases hr : readOperands (asmShape op) more with
    | error f => rw [hr] at h; cases h
    | ok p =>
      obtain ⟨bytes, rest'⟩ := p
      rw [hr] at h
      cases h
      exact ⟨op, more, bytes, rfl, hr, rfl⟩

/-- A pulled word leaves strictly fewer tokens. -/
theorem pullInstr_length {ts : List Token} {code : Opcode → Byte} {w : InstrWord} {rest : List Token}
    (h : pullInstr ts code = (.word w, rest)) : rest.length < ts.length := by
  obtain ⟨op, more, bytes, rfl, hr, -⟩ := pullInstr_word h
  have := readOperands_length _ _ hr
  rw [List.length_cons]
  omega

/-- More pulls than there are tokens, and one, add nothing. -/
theorem assembleFrom_eq_assemble (code : Opcode → Byte) (n : Nat) (ts : List Token) (h : ts.length < n) :
    assembleFrom code n ts = assemble ts code := by
  have key : ∀ (n m : Nat) (ts : List Token), ts.length < n → ts.length < m →
      assembleFrom code n ts = assembleFrom code m ts := by
    intro n
    induction n with
    | zero => intro m ts hn; omega
    | succ n ih =>
      intro m ts hn hm
      cases m with
      | zero => omega
      | succ m =>
        unfold assembleFrom
        cases hp : pullInstr ts code with
        | mk item rest =>
          cases item with
          | done => rfl
          | fault f => rfl
          | word w =>
            have hl := pullInstr_length hp
            dsimp only
            rw [ih m rest (by omega) (by omega)]
  exact key n _ ts h (Nat.lt_succ_self _)

/-- An invocation by one pull (R125): no word at `End`, the fault's reason, or the word in front of what the rest
of the tokens give. -/
theorem assemble_eq (ts : List Token) (code : Opcode → Byte) :
    assemble ts code =
      match pullInstr ts code with
      | (.done, _) => .words []
      | (.fault f, _) => .fault f
      | (.word w, rest) => (assemble rest code).cons w := by
  rw [← assembleFrom_eq_assemble code (ts.length + 1) ts (Nat.lt_succ_self _), assembleFrom]
  cases hp : pullInstr ts code with
  | mk item rest =>
    cases item with
    | done => rfl
    | fault f => rfl
    | word w =>
      have hl := pullInstr_length hp
      dsimp only
      rw [assembleFrom_eq_assemble code ts.length rest hl]

end Sys2Proof.Machine
end

