-- ==== Sys2Proof/Tests/Slice0.lean ====
section
/-! SUPPORT. Tests. Expected values come from the encodings of R82 to R84 and from the vectors `V-…` of
95_test_vectors.md, not from the model. The witnesses at the end show, for each statement with hypotheses, a
concrete state and operands that meet them together, one for each clause. -/

namespace Sys2Proof.Tests

open Sys2Proof.Machine

/-! ### Small states -/

/-- A state whose program is these bytes. -/
def prog (bytes : List Byte) (s : State := .reset) : State :=
  { s with prog := s.prog.appendList bytes }

/-- A state with register `i` holding the signed value `v`. -/
def reg (i : Fin nregs) (v : Int) (s : State) : State :=
  { s with regs := s.regs.set i (BitVec.ofInt 32 v) }

/-- A program, with `x[0]`, `x[1]` and `x[2]`. -/
def regs3 (a b c : Int) (bytes : List Byte) : State := reg 0 a (reg 1 b (reg 2 c (prog bytes)))

/-- A state with an empty list of cells in a program store of length `n`: `n` zero bytes. -/
def progLen (n : Nat) : State := { State.reset with prog := ⟨[], n⟩ }

/-! ### Well-formedness: each check refuses an ill-formed term -/

theorem test_illegal_with_a_mapped_byte_is_refused :
    wellFormed (.illegal 0x00) = false ∧ wellFormed (.illegal 0x10) = false := by decide

theorem test_illegal_with_an_unmapped_byte_is_well_formed :
    wellFormed (.illegal 0x11) = true ∧ wellFormed (.illegal 0xFF) = true := by decide

theorem test_register_byte_32_is_out_of_range :
    regsInRange (.add 31 32 0) = false ∧ regsInRange (.jmp 255) = false ∧
      regsInRange (.load 31 0xFFFF) = true := by decide

/-! ### Decoding: words written out from R82 and R84 -/

theorem test_decode_hlt : decodeTableWord 32 0b00000000_00010010_00110100_01010110 = some .hlt := by decide
theorem test_decode_load :
    decodeTableWord 32 0b00000001_00000101_10000000_00000001 = some (.load 5 0x8001) := by decide
theorem test_decode_add : decodeTableWord 32 0b00000010_00000001_00000010_00000011 = some (.add 1 2 3) := by decide
theorem test_decode_sub : decodeTableWord 32 0b00000011_00000001_00000010_00000011 = some (.sub 1 2 3) := by decide
theorem test_decode_mul : decodeTableWord 32 0b00000100_00000001_00000010_00000011 = some (.mul 1 2 3) := by decide
theorem test_decode_div :
    decodeTableWord 32 0b00000101_00011111_00100000_11111111 = some (.div 31 32 255) := by decide
theorem test_decode_jmp : decodeTableWord 32 0b00000110_00000011_00000000_00000000 = some (.jmp 3) := by decide
theorem test_decode_jmpf : decodeTableWord 32 0b00000111_00000011_10101010_01010101 = some (.jmpf 3) := by decide
theorem test_decode_jmpb : decodeTableWord 32 0b00001000_00000011_00000000_00000000 = some (.jmpb 3) := by decide
theorem test_decode_eq : decodeTableWord 32 0b00001001_00000001_00000010_00000000 = some (.eq 1 2) := by decide
theorem test_decode_neq : decodeTableWord 32 0b00001010_00000001_00000010_00000000 = some (.neq 1 2) := by decide
theorem test_decode_gt : decodeTableWord 32 0b00001011_00000001_00000010_11111111 = some (.gt 1 2) := by decide
theorem test_decode_lt : decodeTableWord 32 0b00001100_00000001_00000010_00000000 = some (.lt 1 2) := by decide
theorem test_decode_gteq : decodeTableWord 32 0b00001101_00000001_00000010_00000000 = some (.gteq 1 2) := by decide
theorem test_decode_lteq : decodeTableWord 32 0b00001110_00000001_00000010_00000000 = some (.lteq 1 2) := by decide
theorem test_decode_jeq : decodeTableWord 32 0b00001111_00000100_00000000_00000000 = some (.jeq 4) := by decide
theorem test_decode_alloc : decodeTableWord 32 0b00010000_00000011_00000000_00000000 = some (.alloc 3) := by decide
theorem test_decode_illegal :
    decodeTableWord 32 0b00010001_00000000_00000000_00000000 = some (.illegal 0x11) ∧
      decodeTableWord 32 0b11111111_00000001_00000010_00000011 = some (.illegal 0xFF) := by decide

/-- V-D6, V-D7, V-D2: a short word is truncated, but for the one-byte opcodes. -/
theorem test_decode_short_words :
    decode [0x01, 0, 1] = .truncated 0x01 ∧ decode [0x06] = .truncated 0x06 ∧ decode [] = .noByte ∧
      decode [0x00] = .instr .hlt ∧ decode [0xFF, 0x20] = .instr (.illegal 0xFF) := by decide

/-- V-Y3, V-Y6. -/
theorem test_encode :
    encode (.load 31 32767) = [0x01, 0x1F, 0x7F, 0xFF] ∧ encode (.mul 3 4 5) = [0x04, 3, 4, 5] := by decide

/-! ### One step of each instruction -/

/-- V-D2. -/
theorem test_hlt : (afterStep (prog [0x00])).status = 0x0001 ∧ (afterStep (prog [0x00])).pc = 0 := by decide

/-- V-S1. -/
theorem test_load_500 :
    let t := afterStep (prog [0x01, 0, 1, 0xF4])
    t.regs[0] = 500 ∧ t.lastw = 0 ∧ t.out = 500 ∧ t.pc = 4 := by decide
/-- V-L2. -/
theorem test_load_sign : (afterStep (prog [0x01, 5, 0x80, 0])).regs[5] = 0xFFFF8000 := by decide

/-- V-A1. -/
theorem test_add_wraps :
    let t := afterStep (regs3 2147483647 1 0 [0x02, 0, 1, 2])
    t.regs[2] = 0x80000000 ∧ t.lastw = 2 ∧ t.pc = 4 := by decide
/-- V-A14: a source is also the destination. -/
theorem test_add_aliased : (afterStep (regs3 3 0 0 [0x02, 0, 0, 0])).regs[0] = 6 := by decide

/-- V-A5. -/
theorem test_sub_order : (afterStep (regs3 0 1 0 [0x03, 0, 1, 2])).regs[2] = 0xFFFFFFFF := by decide
/-- V-A7. -/
theorem test_sub_wraps : (afterStep (regs3 0 (-2147483648) 0 [0x03, 0, 1, 2])).regs[2] = 0x80000000 := by decide

/-- V-A9. -/
theorem test_mul_wraps : (afterStep (regs3 46341 46341 0 [0x04, 0, 1, 2])).regs[2] = 0x80001219 := by decide
/-- V-A9 under the fault policy. -/
theorem test_mul_fault_policy :
    narrow .fault (46341 * 46341) = none ∧ narrow .fault (46340 * 46340) = some 0x7FFEA810 := by decide

/-- V-V2: truncation toward zero. -/
theorem test_div_negative :
    let t := afterStep (regs3 (-7) 2 0 [0x05, 0, 1, 2])
    t.regs[2] = 0xFFFFFFFD ∧ t.rem = 0xFFFFFFFF ∧ t.lastw = 2 := by decide
/-- V-V8, V-P10. -/
theorem test_div_stops :
    (afterStep (regs3 (-2147483648) (-1) 0 [0x05, 0, 1, 2])).status = 0x0106 ∧
      (afterStep (regs3 (-2147483648) 0 0 [0x05, 0, 1, 2])).status = 0x0105 := by decide

/-- V-J1, V-J3. -/
theorem test_jmp :
    (afterStep (regs3 3 0 0 [0x06, 0, 0, 0])).pc = 3 ∧
      (afterStep (regs3 (-1) 0 0 [0x06, 0, 0, 0])).pc = 0xFFFFFFFF := by decide
/-- V-D11, V-J7. -/
theorem test_jmpf :
    (afterStep (regs3 0 0 0 [0x07, 0, 0, 0])).pc = 2 ∧
      (afterStep (regs3 (-6) 0 0 [0x07, 0, 0, 0])).pc = 0xFFFFFFFC := by decide
/-- V-J12, V-J11. -/
theorem test_jmpb :
    (afterStep (regs3 (-2) 0 0 [0x08, 0, 0, 0])).pc = 4 ∧
      (afterStep (regs3 6 0 0 [0x08, 0, 0, 0])).pc = 0xFFFFFFFC := by decide

/-- V-S9, V-D10. -/
theorem test_eq :
    (afterStep (regs3 10 10 0 [0x09, 0, 1, 0xFF])).flag = true ∧
      (afterStep { regs3 10 20 0 [0x09, 0, 1, 0] with flag := true }).flag = false := by decide
/-- V-C1, V-C3. -/
theorem test_neq :
    (afterStep (regs3 0 5 3 [0x0A, 1, 2, 0])).flag = true ∧
      (afterStep { regs3 0 3 3 [0x0A, 1, 2, 0] with flag := true }).flag = false := by decide
/-- V-C4, V-C5: signed. -/
theorem test_gt :
    (afterStep (regs3 0 0 (-1) [0x0B, 1, 2, 0])).flag = true ∧
      (afterStep { regs3 0 (-1) 0 [0x0B, 1, 2, 0] with flag := true }).flag = false := by decide
/-- V-C6, V-C3. -/
theorem test_lt :
    (afterStep (regs3 0 (-2147483648) 2147483647 [0x0C, 1, 2, 0])).flag = true ∧
      (afterStep { regs3 0 3 3 [0x0C, 1, 2, 0] with flag := true }).flag = false := by decide
/-- V-C7, V-C4. -/
theorem test_gteq :
    (afterStep (regs3 0 (-2147483648) (-2147483648) [0x0D, 1, 2, 0])).flag = true ∧
      (afterStep { regs3 0 (-1) 0 [0x0D, 1, 2, 0] with flag := true }).flag = false := by decide
/-- V-C3, V-C5. -/
theorem test_lteq :
    (afterStep (regs3 0 3 3 [0x0E, 1, 2, 0])).flag = true ∧
      (afterStep { regs3 0 0 (-1) [0x0E, 1, 2, 0] with flag := true }).flag = false := by decide

/-- V-J13, V-J14. -/
theorem test_jeq :
    (afterStep { regs3 7 0 0 [0x0F, 0, 0, 0] with flag := true }).pc = 7 ∧
      (afterStep { regs3 7 0 0 [0x0F, 0, 0, 0] with flag := true }).flag = true ∧
      (afterStep (regs3 7 0 0 [0x0F, 0, 0, 0])).pc = 4 := by decide
/-- V-J14 at the other value of `JEQ_NOT_TAKEN_ADVANCE`. -/
theorem test_jeq_parameter :
    (afterStep (regs3 7 0 0 [0x0F, 0, 0, 0]) { params with jeqNotTakenAdvance := 2 }).pc = 2 := by decide
/-- JMPF (R202) at a 64-bit `PC_BITS`: `0 + 2 + u32(-1)` does not wrap at 2^32. -/
theorem test_jmpf_wide_pc :
    let s : State 64 := { State.resetAt 64 with
      regs := (State.resetAt 64).regs.set 0 0xFFFFFFFF, prog := ⟨[(0, 0x07)], 4⟩ }
    (afterStep s).pc = 0x100000001 ∧ stepResult s = .continued := by decide

/-- V-H1, V-H2. -/
theorem test_alloc :
    (afterStep { reg 3 10 (prog [0x10, 3, 0, 0]) with heap := ⟨[], 6⟩ }).heap = ⟨[], 16⟩ ∧
      (afterStep { prog [0x10, 3, 0, 0] with heap := ⟨[], 6⟩ }).heap = ⟨[], 6⟩ := by decide
/-- V-H3, V-H6. -/
theorem test_alloc_stops :
    (afterStep (reg 3 (-1) (prog [0x10, 3, 0, 0]))).status = 0x0307 ∧
      (afterStep { reg 3 6 (prog [0x10, 3, 0, 0]) with heap := ⟨[], 2147483642⟩ }).status = 0x0308 := by decide

/-- V-D3, V-P5. -/
theorem test_illegal :
    (afterStep (prog [0x11, 0, 0, 0])).status = 0x1102 ∧ (afterStep (prog [0xFF, 0x20])).status = 0xFF02 := by
  decide

/-! ### The step around the instructions -/

/-- V-P1, V-P2, V-P3, V-P4, and V-P7: JEQ checks its register on the path not taken too. -/
theorem test_stop_priority :
    (afterStep (prog [0x05, 0x20, 0x21, 0x22])).status = 0x2004 ∧
      (afterStep (prog [0x02, 0, 0x20, 0x21])).status = 0x2004 ∧
      (afterStep (prog [0x05, 0, 1, 0x40])).status = 0x4004 ∧
      (afterStep (prog [0x05, 0x20, 0x21])).status = 0x0503 ∧
      (afterStep (prog [0x0F, 0x20, 0, 0])).status = 0x2004 := by decide

/-- V-D5, V-D1. -/
theorem test_results :
    stepResult (afterStep (prog [0x11, 0, 0, 0])) = .stopped 0x1102 ∧ stepResult State.reset = .completed ∧
      stepResult (prog [0x01, 0, 1, 0xF4]) = .continued := by decide

/-- The word that `withFetchWord` places is the one the next step runs, also after a stop. -/
theorem test_withFetchWord :
    (afterStep (State.reset.withFetchWord 32 0x01010203)).regs[1] = 0x203 ∧
      (afterStep ((afterStep (prog [0x00])).withFetchWord 32 0x01010203)).regs[1] = 0x203 := by decide

theorem test_reset_stores_are_canonical :
    State.reset.heap.wf = true ∧ State.reset.prog.wf = true := by decide

/-- A byte of value 0 is not listed. -/
theorem test_append_keeps_canonical_form :
    (prog [0x01, 0, 1, 0]).prog = ⟨[(0, 0x01), (2, 1)], 4⟩ := by decide

/-- V-O5, V-O6. -/
theorem test_append_limits :
    appendWord ⟨0, 0, 0, 0⟩ (progLen 2147483646) = none ∧
      appendByte 0 (progLen 2147483647) = some (progLen 2147483648) ∧
      appendByte 0 (progLen 2147483648) = none := by decide

/-! ### Text -/

/-- V-X5, V-X6. -/
theorem test_lex_limits :
    lex "$255 $256 $007".toList = [.register 255, .operator .illegal, .register 7, .eof] ∧
      lex "#32767 #32768".toList = [.integer 32767, .operator .illegal, .eof] := by decide

/-- V-X7, V-X8, V-X9, V-X10. -/
theorem test_lex_runs :
    lex "#-1".toList = [.operator .illegal, .operator .illegal, .operator .illegal, .eof] ∧
      lex "$ 5".toList = [.operator .illegal, .operator .illegal, .eof] ∧
      lex "load$0#5".toList = [.operator .load, .register 0, .integer 5, .eof] ∧
      lex "jmpf1".toList = [.operator .jmpf, .operator .illegal, .eof] := by decide

/-- V-Y12, V-Y13, V-Y23. -/
theorem test_assemble :
    assembleText "alloc $3".toList = .fault .operandWhereOperatorExpected ∧
      assembleText "$300 hlt".toList = .words [⟨0xFF, 0, 0, 0⟩, ⟨0, 0, 0, 0⟩] ∧
      assembleText "load $0 #1\nadd $0".toList = .fault .prematureEnd := by decide

/-! ### Witnesses: the hypotheses of each statement are met together -/

theorem witness_OtherTextsAreIllegal :
    "alloc".toList ∉ ["hlt", "load", "add", "sub", "mul", "div", "jmp", "jmpf", "jmpb", "eq", "neq", "gt", "lt",
      "gteq", "lteq", "jeq"].map String.toList := by decide

theorem witness_OpcodeBytesAreTotal :
    (0x10 : Byte).toNat ≤ 0x10 ∧ 0x11 ≤ (0x11 : Byte).toNat := by decide

theorem witness_DecodeInvertsEncode :
    (∀ op ∈ Opcode.defined, ∀ op' ∈ Opcode.defined, opcodeCode op = opcodeCode op' → op = op') ∧
      wellFormed (.illegal 0x11) = true ∧ wellFormed (.div 255 0 32) = true := by decide

theorem witness_StepRunsTheDecodedInstruction :
    let s := prog [0x0F, 4, 0, 0]
    s.stopped = false ∧
      (∀ k (h : k < [0x0F, 4, 0, (0 : Byte)].length), s.prog.read (s.pc.toNat + k) = some [0x0F, 4, 0, 0][k]) ∧
      decode [0x0F, 4, 0, 0] = .instr (.jeq 4) := by decide

theorem witness_StoppedBlockStaysStopped :
    (afterStep (prog [0x00])).status.extractLsb' 0 4 ≠ (0 : BitVec 4) := by decide

theorem witness_CompletionChangesNothing :
    State.reset.status.extractLsb' 0 4 = (0 : BitVec 4) ∧ State.reset.prog.len ≤ State.reset.pc.toNat := by decide

theorem witness_TruncatedWordStops :
    let s := prog [0x01, 0, 1]
    s.stopped = false ∧ s.prog.read s.pc.toNat = some 0x01 ∧ byteToOpcode 0x01 ≠ .halt ∧
      byteToOpcode 0x01 ≠ .illegal ∧ s.prog.len < s.pc.toNat + 4 := by decide

theorem witness_FirstBadRegisterStops :
    (List.zip (shape (opcodeOf (.add 31 32 255))) (operandBytes (.add 31 32 255))).find?
      (fun p => p.1 == .reg && decide (32 ≤ p.2.toNat)) = some (.reg, 32) := by decide

theorem witness_StepResultsTellTheStep_continue :
    ∃ s t, step s = .next t ∧ t.stopped = false ∧ s.pc.toNat < s.prog.len :=
  ⟨prog [0x01, 0, 1, 0xF4], _, rfl, by decide⟩
theorem witness_StepResultsTellTheStep_completed :
    ∃ s t, step s = .next t ∧ s.stopped = false ∧ s.prog.len ≤ s.pc.toNat := ⟨State.reset, _, rfl, by decide⟩
theorem witness_StepResultsTellTheStep_stopped :
    ∃ s t, step s = .next t ∧ t.stopped = true := ⟨prog [0x00], _, rfl, by decide⟩

theorem witness_HaltStops :
    (prog [0x00]).stopped = false ∧ (prog [0x00]).prog.read (prog [0x00]).pc.toNat = some 0x00 := by decide

theorem witness_IllegalStops :
    (prog [0x11]).stopped = false ∧ (prog [0x11]).prog.read (prog [0x11]).pc.toNat = some 0x11 ∧
      0x11 ≤ (0x11 : Byte).toNat := by decide

/-- The two programs differ in an unused byte and beyond the word. -/
theorem witness_StepReadsOnlyItsWord :
    ∃ (s t : State) (p : Memory), p ≠ s.prog ∧ p.len = s.prog.len ∧
      p.read s.pc.toNat = s.prog.read s.pc.toNat ∧
      (∀ k b0, k < 3 → s.prog.read s.pc.toNat = some b0 →
        (shape (byteToOpcode b0))[k]? ≠ some .unused →
        p.read (s.pc.toNat + 1 + k) = s.prog.read (s.pc.toNat + 1 + k)) ∧
      step s = .next t := by
  refine ⟨prog [0x09, 0, 1, 0, 0], _, (prog [0x09, 0, 1, 7, 8]).prog, by decide, by decide, by decide, ?_, rfl⟩
  rintro k b0 hk hb
  obtain rfl : (0x09 : Byte) = b0 := Option.some.inj hb
  revert k
  decide

theorem witness_LoadWritesSignExtendedImmediate : (31 : Byte).toNat < nregs := by decide

theorem witness_ArithmeticWraps :
    (0 : Byte).toNat < nregs ∧ (0 : Byte).toNat < nregs ∧ (31 : Byte).toNat < nregs := by decide

theorem witness_FaultPolicyStopsOverflow :
    let P := { params with overflowPolicy := .fault }
    let s := regs3 2147483647 1 0 []
    P.overflowPolicy = .fault ∧
      (-2147483648 ≤ s.regs[0].toInt - s.regs[1].toInt ∧ s.regs[0].toInt + s.regs[2].toInt ≤ 2147483647) ∧
      2147483647 < s.regs[0].toInt + s.regs[1].toInt ∧
      s.regs[0].toInt * (-s.regs[0].toInt) < -2147483648 := by decide

theorem witness_DivFollowsTheDivisionLaw :
    let s := regs3 (-2147483648) (-2) 0 []
    s.regs[1].toInt ≠ 0 ∧ ¬ (s.regs[0].toInt = -2147483648 ∧ s.regs[1].toInt = -1) := by decide

theorem witness_DivStops :
    let s := regs3 (-2147483648) (-1) 0 []
    s.regs[2] = 0 ∧ s.regs[0] = 0x80000000 ∧ s.regs[1] = 0xFFFFFFFF := by decide

theorem witness_FrameOfRegisterWriters :
    ∃ s t, exec (.div 0 1 2) s = .next t ∧ t.reg 2 ≠ s.reg 2 ∧ t.rem ≠ s.rem :=
  ⟨regs3 7 2 0 [], _, rfl, by decide⟩
theorem witness_FrameOfRegisterWriters_stop :
    ∃ s t, exec (.load 32 0) s = .next t ∧ t.status ≠ s.status := ⟨State.reset, _, rfl, by decide⟩

theorem witness_JumpsSetPc : (31 : Byte).toNat < nregs := by decide

theorem witness_JeqFollowsFlag :
    (31 : Byte).toNat < nregs ∧ State.reset.flag = false ∧ ({ State.reset with flag := true } : State).flag = true := by
  decide

theorem witness_FrameOfJumps :
    ∃ s t, exec (.jmpf 0) s = .next t ∧ t.pc ≠ s.pc := ⟨State.reset, _, rfl, by decide⟩
theorem witness_FrameOfJumps_stop :
    ∃ s t, exec (.jeq 32) s = .next t ∧ t.status ≠ s.status := ⟨State.reset, _, rfl, by decide⟩

/-- A running state with a program and an empty heap meets the invariants. -/
theorem inv_of_program (s : State) (hheap : s.heap = ⟨[], 0⟩) (hst : s.status = 0) (hlen : s.prog.len ≤ 2 ^ 31)
    (hwf : s.prog.wf = true) : Inv s where
  heapLen := by simp [hheap]
  heapZero := by simp [hheap]
  progLen := hlen
  reserved := by simp [State.statusReserved, hst]
  detail := by simp [State.detail, hst]
  causeLegal := by simp [State.cause, hst]
  heapWf := by rw [hheap]; rfl
  progWf := hwf

theorem witness_NegativeTargetsComplete :
    let s := regs3 (-6) (-2) 6 [0x07, 0, 0, 0]
    Inv s ∧ s.pc.toNat < s.prog.len ∧ s.regs[0].toInt < 0 ∧ (s.pc.toNat : Int) + 2 + s.regs[0].toInt < 0 ∧
      (s.pc.toNat : Int) + 2 - s.regs[2].toInt < 0 :=
  ⟨inv_of_program _ (by decide) (by decide) (by decide) (by decide), by decide⟩

theorem witness_SequentialAdvanceNeverWraps :
    Inv (prog [0x00]) ∧ (prog [0x00]).pc.toNat < (prog [0x00]).prog.len :=
  ⟨inv_of_program _ (by decide) (by decide) (by decide) (by decide), by decide⟩
/-- The last offset of the largest program. -/
theorem witness_SequentialAdvanceNeverWraps_at_the_end :
    let s : State := { progLen 2147483648 with pc := 2147483647 }
    Inv s ∧ s.pc.toNat < s.prog.len :=
  ⟨inv_of_program _ (by decide) (by decide) (by decide) (by decide), by decide⟩

/-- V-J2. -/
theorem witness_JumpToItselfHangs :
    let s := prog [0x06, 0, 0, 0]
    s.stopped = false ∧ s.prog.read s.pc.toNat = some 0x06 ∧ s.prog.read (s.pc.toNat + 1) = some 0 ∧
      s.prog.read (s.pc.toNat + 2) = some 0 ∧ s.prog.read (s.pc.toNat + 3) = some 0 ∧ s.regs[0] = s.pc := by decide

theorem witness_ComparisonsSetFlag : (0 : Byte).toNat < nregs ∧ (31 : Byte).toNat < nregs := by decide

theorem witness_FrameOfComparisons :
    ∃ s t, exec (.gt 0 1) s = .next t ∧ t.flag ≠ s.flag := ⟨regs3 1 0 0 [], _, rfl, by decide⟩
theorem witness_FrameOfComparisons_stop :
    ∃ s t, exec (.lteq 0 32) s = .next t ∧ t.status ≠ s.status := ⟨State.reset, _, rfl, by decide⟩

/-- V-H4: the largest count. -/
theorem witness_AllocGrowsByZeros :
    (regs3 2147483647 0 0 []).regs[0].toInt = (2147483647 : Nat) ∧
      (regs3 2147483647 0 0 []).heap.len + 2147483647 ≤ 2147483647 := by decide
/-- V-H7: up to the limit from a heap that is not empty. -/
theorem witness_AllocGrowsByZeros_to_the_limit :
    let s : State := { regs3 5 0 0 [] with heap := ⟨[], 2147483642⟩ }
    s.regs[0].toInt = ((5 : Nat) : Int) ∧ s.heap.len + 5 ≤ 2147483647 := by decide

/-- V-H3. -/
theorem witness_AllocStops_negative : (regs3 (-1) 0 0 []).regs[0].toInt < 0 := by decide
/-- V-H6: one past the limit. -/
theorem witness_AllocStops_limit :
    let s := { regs3 6 0 0 [] with heap := ⟨[], 2147483642⟩ }
    0 ≤ s.regs[0].toInt ∧ 2147483647 < (s.heap.len : Int) + s.regs[0].toInt := by decide

theorem witness_FrameOfAlloc :
    ∃ s t, exec (.alloc 0) s = .next t ∧ t.heap ≠ s.heap ∧
      ∀ h : (0 : Byte).toNat < nregs, ¬ (s.heap.len ≤ 0 ∧ 0 < s.heap.len + (s32 (s.reg ⟨(0 : Byte).toNat, h⟩)).toNat) :=
  ⟨{ regs3 3 0 0 [] with heap := ⟨[], 1⟩ }, _, rfl, by decide⟩
theorem witness_FrameOfAlloc_stop :
    ∃ s t, exec (.alloc 0) s = .next t ∧ t.status ≠ s.status := ⟨regs3 (-1) 0 0 [], _, rfl, by decide⟩

theorem witness_OnlyComparisonsChangeFlag :
    ∃ s t, step s = .next t ∧ t.flag ≠ s.flag := ⟨prog [0x09, 0, 1, 0], _, rfl, by decide⟩

theorem witness_OnlyDivChangesRem :
    ∃ s t, step s = .next t ∧ t.rem ≠ s.rem := ⟨regs3 245 2 0 [0x05, 0, 1, 2], _, rfl, by decide⟩

theorem witness_OnlyLoadAndArithmeticChangeRegisters :
    ∃ s t, step s = .next t ∧ t.regs ≠ s.regs ∧ t.lastw ≠ s.lastw ∧ t.reg 5 ≠ s.reg 5 :=
  ⟨prog [0x01, 5, 0x80, 0], _, rfl, by decide⟩

theorem witness_HeapOnlyGrowsAndProgramStays :
    ∃ s t, step s = .next t ∧ t.heap ≠ s.heap ∧ 0 < s.heap.len :=
  ⟨{ reg 3 10 (prog [0x10, 3, 0, 0]) with heap := ⟨[], 6⟩ }, _, rfl, by decide⟩

theorem witness_CanonicalStoresAreEqual :
    let m := (prog [0x01, 0, 1, 0]).prog
    m.wf = true ∧ m.len = m.len ∧ ∀ a, m.read a = m.read a := ⟨by decide, rfl, fun _ => rfl⟩

theorem witness_StatusRecordsTheStop :
    (Cause.faultOverflow, 9) ∈ [(Cause.halted, 1), (.illegalOpcode, 2), (.faultTruncated, 3), (.faultRegIndex, 4),
      (.faultDivZero, 5), (.faultDivOverflow, 6), (.faultNegAlloc, 7), (.faultHeapLimit, 8),
      (.faultOverflow, 9)] := by decide

theorem witness_StopsArePrecise :
    ∃ s t, s.stopped = false ∧ step s = .next t ∧ t.stopped = true :=
  ⟨regs3 7 0 0 [0x05, 0, 1, 2], _, by decide, rfl, by decide⟩

theorem witness_StopPriority_halt_and_illegal :
    (prog [0x00]).stopped = false ∧ (prog [0x00]).prog.read 0 = some 0x00 ∧
      (prog [0x11]).stopped = false ∧ (prog [0x11]).prog.read 0 = some 0x11 ∧ 0x11 ≤ (0x11 : Byte).toNat := by decide
theorem witness_StopPriority_truncated :
    let s := prog [0x10, 0x20, 0x21]
    s.stopped = false ∧ s.prog.read s.pc.toNat = some 0x10 ∧ (0x10 : Byte) ≠ 0x00 ∧ (0x10 : Byte).toNat < 0x11 ∧
      s.prog.len < s.pc.toNat + 4 := by decide
theorem witness_StopPriority_register :
    let s := prog [0x05, 0, 1, 0x20]
    s.stopped = false ∧ s.prog.read s.pc.toNat = some 0x05 ∧ s.prog.read (s.pc.toNat + 1) = some 0 ∧
      s.prog.read (s.pc.toNat + 2) = some 1 ∧ s.prog.read (s.pc.toNat + 3) = some 0x20 ∧
      (List.zip (shape (byteToOpcode 0x05)) [0, 1, (0x20 : Byte)]).find?
        (fun p => p.1 == .reg && decide (32 ≤ p.2.toNat)) = some (.reg, 0x20) := by decide
/-- V-P10: the dividend that would overflow with divisor -1. -/
theorem witness_StopPriority_divZero :
    let s := regs3 (-2147483648) 0 0 [0x05, 0, 1, 2]
    s.stopped = false ∧ s.prog.read s.pc.toNat = some 0x05 ∧ s.prog.read (s.pc.toNat + 1) = some 0 ∧
      s.prog.read (s.pc.toNat + 2) = some 1 ∧ s.prog.read (s.pc.toNat + 3) = some 2 ∧ s.regs[1] = 0 := by decide
theorem witness_StopPriority_alloc :
    let s := regs3 (-1) 0 0 [0x10, 0, 0, 0]
    s.stopped = false ∧ s.prog.read s.pc.toNat = some 0x10 ∧ s.prog.read (s.pc.toNat + 1) = some 0 ∧
      s.prog.read (s.pc.toNat + 2) = some 0 ∧ s.prog.read (s.pc.toNat + 3) = some 0 ∧ s.regs[0].toInt < 0 := by decide

/-- V-O3. -/
theorem witness_StopsAreTerminal :
    ∃ (op : HostOp) (s t : State) (reply : HostReply),
      s.stopped = true ∧ op ≠ HostOp.reset ∧ HostStep op s t reply ∧ t.prog ≠ s.prog :=
  ⟨.appendWord ⟨0x01, 0, 0, 1⟩, afterStep (prog [0x00]), _, _, by decide, by decide, rfl, by decide⟩

/-- A run to a HALT, and a run that completes at once. -/
theorem witness_NormalEndsAreNoFailStops_halted :
    RunsNormally (prog [0x00]) (afterStep (prog [0x00])) :=
  ⟨_, ⟨.single ⟨by decide, step_next _⟩, .inl ⟨by decide, rfl⟩⟩, by decide⟩
theorem witness_NormalEndsAreNoFailStops_completed : RunsNormally State.reset State.reset :=
  ⟨_, ⟨.refl, .inr ⟨by decide, by decide, rfl⟩⟩, by decide⟩
theorem witness_NormalEndsAreNoFailStops_cause : Cause.faultRegIndex ≠ .halted := by decide

/-- A smaller heap limit and a 64-bit `pc`: an ALLOC up to the limit. -/
theorem witness_StepKeepsInvariants_parameters :
    let P := { params with heapMax := 8 }
    ∃ s t : State 64, Inv s P ∧ stepWith P s = .next t ∧ t ≠ s :=
  ⟨{ State.resetAt 64 with
      regs := (State.resetAt 64).regs.set 0 8, prog := ⟨[(0, 0x10)], 4⟩ }, _,
    ⟨by decide, fun _ h => absurd h (Nat.not_lt_zero _), by decide, by decide, by decide, by decide, by decide,
      by decide⟩, rfl, by decide⟩

theorem witness_StepKeepsInvariants :
    ∃ s t, Inv s ∧ step s = .next t ∧ t ≠ s :=
  ⟨regs3 7 2 0 [0x05, 0, 1, 2], _, inv_of_program _ (by decide) (by decide) (by decide) (by decide), rfl, by decide⟩

/-- V-O2: a byte appended, and a step. -/
theorem witness_ReachableStatesMeetInvariants : Reachable (afterStep (prog [0x00])) :=
  .tail (.single ⟨.appendByte 0x00, .done, rfl⟩) ⟨.singleStep, _, rfl⟩

/-- P5's last word: both sides hold of one run. -/
theorem witness_RunMatchesTheExecutor :
    let s := regs3 7 0 0 [0x05, 0, 1, 2]
    RunEnds s (afterStep s) (.stopped 0x0105) ∧ runFuel 1 s = .ended (afterStep s) (.stopped 0x0105) :=
  ⟨⟨.single ⟨by decide, step_next _⟩, .inl ⟨by decide, by decide⟩⟩, by decide⟩

/-- The boundaries of the two limits. -/
theorem witness_AppendsExtendProgram :
    (progLen 2147483647).prog.wf = true ∧ (progLen 2147483647).prog.len < 2147483648 ∧
      (progLen 2147483648).prog.wf = true ∧ 2147483648 ≤ (progLen 2147483648).prog.len ∧
      (progLen 2147483644).prog.len + 4 ≤ 2147483648 ∧ 2147483648 < (progLen 2147483645).prog.len + 4 := by decide

theorem witness_AssembleAndAppendIsAllOrNothing :
    (progLen 2147483644).prog.wf = true ∧ assembleText "add $0 #1 $2".toList = .fault .integerWhereRegisterExpected ∧
      assembleText "hlt".toList = .words [⟨0, 0, 0, 0⟩] ∧ (progLen 2147483644).prog.len + 4 * 1 ≤ 2147483648 ∧
      2147483648 < (progLen 2147483645).prog.len + 4 * 1 := by decide

/-- V-D12. -/
theorem witness_AppendedWordRunsNext :
    ∃ t, let s := afterStep (prog [0x01, 0, 0, 5])
      s.prog.wf = true ∧ s.stopped = false ∧ s.pc.toNat = s.prog.len ∧
        decode (InstrWord.bytes ⟨2, 0, 0, 1⟩) = .instr (.add 0 0 1) ∧ appendWord ⟨2, 0, 0, 1⟩ s = some t :=
  ⟨_, by decide, by decide, by decide, by decide, rfl⟩

theorem witness_LexingSkipsWhitespace : ∀ c ∈ " \t\r\n".toList, c ∈ [' ', '\t', '\n', '\r'] := by simp

/-- One literal at each limit and one past it: the digits, their maximal run, and the value. -/
theorem witness_SigilLiterals :
    (∀ ds ∈ ["255".toList, "256".toList, "32767".toList, "32768".toList], ds ≠ [] ∧
      ∀ c ∈ ds, '0'.toNat ≤ c.toNat ∧ c.toNat ≤ '9'.toNat) ∧
      (∀ c, " hlt".toList.head? = some c → ¬ ('0'.toNat ≤ c.toNat ∧ c.toNat ≤ '9'.toNat)) ∧
      Nat.ofDigits 10 ("256".toList.reverse.map fun c => c.toNat - '0'.toNat) = 256 := by
  refine ⟨by simp, ?_, by simp [Nat.ofDigits]⟩
  intro c hc
  obtain rfl : ' ' = c := by simpa using hc
  decide

theorem witness_IdentifiersAndOtherCharacters :
    let letter (c : Char) : Prop := ('A'.toNat ≤ c.toNat ∧ c.toNat ≤ 'Z'.toNat) ∨
      ('a'.toNat ≤ c.toNat ∧ c.toNat ≤ 'z'.toNat) ∨ c = '_'
    let digit (c : Char) : Prop := '0'.toNat ≤ c.toNat ∧ c.toNat ≤ '9'.toNat
    ("a_Z".toList ≠ [] ∧ ∀ c ∈ "a_Z".toList, letter c) ∧ ("09".toList ≠ [] ∧ ∀ c ∈ "09".toList, digit c) ∧
      (∀ c, " ".toList.head? = some c → ¬ letter c ∧ ¬ digit c) ∧
      ¬ letter ',' ∧ ¬ digit ',' ∧ ',' ∉ [' ', '\t', '\n', '\r', '$', '#'] := by
  refine ⟨by simp, by simp, ?_, by decide, by decide, by decide⟩
  intro c hc
  obtain rfl : ' ' = c := by simpa using hc
  decide

theorem witness_SyntaxFaultReasons_register :
    asmShape .add = [.register] ++ .register :: [.register] ∧
      List.Forall₂ (fun (k : OperandKind) (t : Token) =>
        (k = .register ∧ ∃ x, t = .register x) ∨ (k = .integer ∧ ∃ v, t = .integer v))
        [.register] [.register 0] := by
  refine ⟨by decide, .cons (.inl ⟨rfl, 0, rfl⟩) .nil⟩
theorem witness_SyntaxFaultReasons_integer :
    asmShape .load = [.register] ++ .integer :: [] ∧
      List.Forall₂ (fun (k : OperandKind) (t : Token) =>
        (k = .register ∧ ∃ x, t = .register x) ∨ (k = .integer ∧ ∃ v, t = .integer v))
        [.register] [.register 255] := by
  refine ⟨by decide, .cons (.inl ⟨rfl, 255, rfl⟩) .nil⟩

/-- V-Y23: a complete LOAD in front of tokens that fault. -/
theorem witness_SyntaxFaultReasons_later_fault :
    List.Forall₂ (fun (k : OperandKind) (t : Token) =>
      (k = .register ∧ ∃ x, t = .register x) ∨ (k = .integer ∧ ∃ v, t = .integer v))
      (asmShape .load) [.register 0, .integer 1] ∧
      assemble [.operator .add, .register 0, .eof] = .fault .prematureEnd :=
  ⟨.cons (.inl ⟨rfl, 0, rfl⟩) (.cons (.inr ⟨rfl, 1, rfl⟩) .nil), by decide⟩

/-- V-Y10: a register number that no register has is assembled. -/
theorem witness_AssembledWordsAreEncodings :
    assemble [.operator .load, .register 40, .integer 1, .eof] = .words [⟨0x01, 0x28, 0, 1⟩] := by decide

/-- V-Y11: a text that assembles. -/
theorem witness_NoTextAssemblesToAlloc : assembleText "foo".toList = .words [⟨0xFF, 0, 0, 0⟩] := by decide

end Sys2Proof.Tests
end

/-! ## Proofs: the parameters of R8 (00_scope.md) -/

namespace Sys2Proof.Machine

section BinaryOp

/-! ### ADD, SUB and MUL on valid register operands (R180) -/

variable {pcBits : Nat} {p : OverflowPolicy} {f : Int → Int → Int} {l r d : Byte} {s : State pcBits}

/-- A representable result is written to the destination. -/
theorem binaryOp_of_narrow_eq_some {v : Word} (hl : l.toNat < nregs) (hr : r.toNat < nregs)
    (hd : d.toNat < nregs)
    (h : narrow p (f s.regs[l.toNat].toInt s.regs[r.toNat].toInt) = some v) :
    binaryOp p f l r d s = .next (advance (writeDest ⟨d.toNat, hd⟩ v s)) := by
  unfold binaryOp
  rw [withReg_of_lt hl, withReg_of_lt hr, withReg_of_lt hd]
  simp only [State.reg, Fin.getElem_fin, h]

/-- A result that the policy does not represent stops with detail 0. -/
theorem binaryOp_of_narrow_eq_none (hl : l.toNat < nregs) (hr : r.toNat < nregs)
    (hd : d.toNat < nregs)
    (h : narrow p (f s.regs[l.toNat].toInt s.regs[r.toNat].toInt) = none) :
    binaryOp p f l r d s = .next (stopState .faultOverflow 0 s) := by
  unfold binaryOp
  rw [withReg_of_lt hl, withReg_of_lt hr, withReg_of_lt hd]
  simp only [State.reg, Fin.getElem_fin, h, raiseStop_eq]

/-- In the signed range the fault policy does what the wrap policy does. -/
theorem binaryOp_fault_eq_wrap (hl : l.toNat < nregs) (hr : r.toNat < nregs) (hd : d.toNat < nregs)
    (h : -2 ^ 31 ≤ f s.regs[l.toNat].toInt s.regs[r.toNat].toInt ∧
      f s.regs[l.toNat].toInt s.regs[r.toNat].toInt < 2 ^ 31) :
    binaryOp .fault f l r d s = binaryOp .wrap f l r d s := by
  have hfault : narrow .fault (f s.regs[l.toNat].toInt s.regs[r.toNat].toInt) = some _ :=
    (narrow_fault _).trans (if_pos h)
  rw [binaryOp_of_narrow_eq_some hl hr hd hfault,
    binaryOp_of_narrow_eq_some hl hr hd (narrow_wrap _)]

/-- Outside the signed range the fault policy stops with `FAULT_OVERFLOW`. -/
theorem binaryOp_fault_overflow (hl : l.toNat < nregs) (hr : r.toNat < nregs) (hd : d.toNat < nregs)
    (h : ¬ (-2 ^ 31 ≤ f s.regs[l.toNat].toInt s.regs[r.toNat].toInt ∧
      f s.regs[l.toNat].toInt s.regs[r.toNat].toInt < 2 ^ 31)) :
    binaryOp .fault f l r d s = .next (stopState .faultOverflow 0 s) :=
  binaryOp_of_narrow_eq_none hl hr hd ((narrow_fault _).trans (if_neg h))

/-- Both cases of the fault policy, with the bounds and STATUS as numerals. -/
theorem binaryOp_fault_spec (hp : p = .fault) (f : Int → Int → Int) (s : State pcBits)
    (hl : l.toNat < nregs) (hr : r.toNat < nregs) (hd : d.toNat < nregs) :
    let z := f s.regs[l.toNat].toInt s.regs[r.toNat].toInt
    (-2147483648 ≤ z ∧ z ≤ 2147483647 → binaryOp p f l r d s = binaryOp .wrap f l r d s) ∧
    (z < -2147483648 ∨ 2147483647 < z →
      binaryOp p f l r d s = .next { s with status := 0x0009 }) := by
  subst hp
  exact ⟨fun h => binaryOp_fault_eq_wrap hl hr hd (by omega),
    fun h => binaryOp_fault_overflow hl hr hd (by omega)⟩

end BinaryOp

/-- Settles O18: ADD, SUB and MUL are each `binaryOp` at the policy, so all three follow from
`binaryOp_fault_spec`. -/
theorem faultPolicyStopsOverflow : Obligations.FaultPolicyStopsOverflow := by
  intro P l r d s hl hr hd hP a c p hp
  simp only [List.mem_cons, List.not_mem_nil, or_false] at hp
  rcases hp with rfl | rfl | rfl
  · exact binaryOp_fault_spec hP (fun a c => a + c) s hl hr hd
  · exact binaryOp_fault_spec hP (fun a c => a - c) s hl hr hd
  · exact binaryOp_fault_spec hP (fun a c => a * c) s hl hr hd

/-- Settles O51, by the dispatch's and the step's own lemmas at the spec's parameters. -/
theorem parametersDefaultToTheSpec : Obligations.ParametersDefaultToTheSpec :=
  fun i s => ⟨execWith_params i s, stepWith_params s⟩

end Sys2Proof.Machine

/-! ## Proofs: the state (10_state.md) -/

namespace Sys2Proof.Machine

section StateRules

variable {pcBits : Nat} {P : Params} {s t : State pcBits}

/-! ### What an instruction and a step can change -/

/-- The five ways a completed instruction changes the state, each with the instructions that do it. -/
inductive Change (P : Params) (i : Instr) (s : State pcBits) : State pcBits → Prop
  /-- LOAD and arithmetic write one register; only DIV writes REM (R30, R31). -/
  | write (k : Fin nregs) (v m : Word) (hop : opcodeOf i ∈ [Opcode.load, .add, .sub, .mul, .div])
      (hrem : m = s.rem ∨ ∃ l r d, i = .div l r d) : Change P i s (advance (setRem m (writeDest k v s)))
  /-- The comparisons write FLAG (R29). -/
  | compare (v : Bool) (hop : opcodeOf i ∈ [Opcode.eq, .neq, .gt, .lt, .gteq, .lteq]) :
      Change P i s (advance (setFlag v s))
  /-- The jumps write `pc` alone. -/
  | jump (p : Pc pcBits) : Change P i s (setPc p s)
  /-- ALLOC grows the heap within its limit (R57, R59). -/
  | grow (r : Byte) (n : Nat) (hi : i = .alloc r) (hmax : s.heap.len + n ≤ P.heapMax) :
      Change P i s (advance (heapGrow n s))

/-- The effect of every instruction is one of the five changes. -/
theorem Effect.change {i : Instr} (h : Effect i s t P) : Change P i s t := by
  cases i with
  | hlt | illegal => exact h.elim
  | load | add | sub | mul =>
    obtain ⟨k, v, -, rfl⟩ := h
    exact .write k v s.rem (by simp [opcodeOf]) (.inl rfl)
  | div l r d =>
    obtain ⟨k, v, m, -, rfl⟩ := h
    exact .write k v m (by simp [opcodeOf]) (.inr ⟨l, r, d, rfl⟩)
  | eq | neq | gt | lt | gteq | lteq =>
    obtain ⟨v, rfl⟩ := h
    exact .compare v (by simp [opcodeOf])
  | jmp | jmpf | jmpb | jeq =>
    obtain ⟨p, rfl⟩ := h
    exact .jump p
  | alloc r =>
    obtain ⟨k, -, -, hmax, rfl⟩ := h
    exact .grow r _ rfl hmax

/-- A step leaves the state as it is, stops the block, or, in a running block, makes the change of the
instruction fetched. -/
theorem stepWith_change (h : stepWith P s = .next t) :
    t = s ∨ IsStop s t ∨ (s.stopped = false ∧ ∃ i, fetch P s = .instr i ∧ Change P i s t) := by
  obtain ⟨t', ht, hcases⟩ := stepWith_cases P s
  obtain rfl : t' = t := Host.Outcome.next.inj (ht.symm.trans h)
  rcases hcases with ⟨-, rfl⟩ | ⟨-, -, rfl⟩ | ⟨-, -, hstop⟩ | ⟨hrun, -, i, hi, -, he⟩
  · exact .inl rfl
  · exact .inl rfl
  · exact .inr (.inl hstop)
  · exact .inr (.inr ⟨hrun, i, hi, he.change⟩)

/-- Where a step changes a part of the state that no stop touches, the instruction fetched made the change, and
the block was running. -/
theorem change_of_step_ne {α : Type} {s t : State} (part : State → α)
    (hpart : ∀ c b, part (stopState c b s) = part s) (h : step s = .next t) (hne : part t ≠ part s) :
    s.stopped = false ∧ ∃ i, fetch params s = .instr i ∧ Change params i s t := by
  rcases stepWith_change ((stepWith_params s).trans h) with rfl | ⟨c, b, rfl⟩ | hchange
  · exact absurd rfl hne
  · exact absurd (hpart c b) hne
  · exact hchange

/-- No step writes the program (R53). -/
theorem step_prog {s t : State} (h : step s = .next t) : t.prog = s.prog := by
  by_contra hne
  obtain ⟨-, i, -, hchange⟩ := change_of_step_ne State.prog (fun _ _ => rfl) h hne
  cases hchange <;> exact hne rfl

/-- A step leaves the heap as it is, or fetched an ALLOC and grew it by zeros. -/
theorem step_heap {s t : State} (h : step s = .next t) :
    t.heap = s.heap ∨ ∃ r n, fetch params s = .instr (.alloc r) ∧ t.heap = s.heap.appendZeros n := by
  by_cases hne : t.heap = s.heap
  · exact .inl hne
  · obtain ⟨-, i, hi, hchange⟩ := change_of_step_ne State.heap (fun _ _ => rfl) h hne
    cases hchange with
    | grow r n hr _ => exact .inr ⟨r, n, hr ▸ hi, rfl⟩
    | write | compare | jump => exact absurd rfl hne

/-- The effect of LOAD and arithmetic, the destination named: one register and LASTW, and REM for DIV alone. -/
theorem Effect.registerWriter {l r d : Byte} {imm : Imm16} {i : Instr}
    (hi : i ∈ [Instr.load d imm, .add l r d, .sub l r d, .mul l r d, .div l r d]) (h : Effect i s t P) :
    ∃ k v m, k.val = d.toNat ∧ (i ≠ .div l r d → m = s.rem) ∧ t = advance (setRem m (writeDest k v s)) := by
  simp only [List.mem_cons, List.not_mem_nil, or_false] at hi
  rcases hi with rfl | rfl | rfl | rfl | rfl
  case inr.inr.inr.inr =>
    obtain ⟨k, v, m, hk, ht⟩ := h
    exact ⟨k, v, m, hk, fun hdiv => absurd rfl hdiv, ht⟩
  all_goals
    obtain ⟨k, v, hk, ht⟩ := h
    exact ⟨k, v, s.rem, hk, fun _ => rfl, ht⟩

/-! ### STATUS (R34, R250) -/

/-- The STATUS word of a stop as a number: DETAIL from bit 8 up, CAUSE in the low bits. -/
theorem stopStatus_toNat (c : Cause) (b : Byte) : (stopStatus c b).toNat = b.toNat * 256 + c.code.toNat := by
  unfold stopStatus
  rw [BitVec.toNat_append, BitVec.toNat_append, ← Nat.shiftLeft_add_eq_or_of_lt (BitVec.isLt _),
    ← Nat.shiftLeft_add_eq_or_of_lt (BitVec.isLt _), Nat.shiftLeft_eq, Nat.shiftLeft_eq]
  have hreserved : (0 : BitVec 4).toNat = 0 := rfl
  omega

/-- Every cause's code is one of R250's. -/
theorem code_toNat_le (c : Cause) : c.code.toNat ≤ 9 := by cases c <;> decide

/-! ### The invariants of R40 -/

/-- `Inv` speaks of the two stores and STATUS only. -/
theorem Inv.of_frame (h : Inv s P) (hheap : t.heap = s.heap) (hprog : t.prog = s.prog)
    (hstatus : t.status = s.status) : Inv t P := by
  cases s
  cases t
  cases hheap
  cases hprog
  cases hstatus
  exact { h with }

/-- A stop records a legal STATUS. -/
theorem Inv.after_stop (h : Inv s P) (c : Cause) (b : Byte) : Inv (stopState c b s) P :=
  { h with
    reserved := stopState_reserved c b s
    detail := fun hc => absurd ((stopState_cause c b s).symm.trans hc) (code_ne_zero c)
    causeLegal := (stopState_cause c b s).symm ▸ code_toNat_le c }

/-- Heap growth up to the limit keeps the heap zero and canonical (R57, R58). -/
theorem Inv.after_growth (h : Inv s P) {n : Nat} (hmax : s.heap.len + n ≤ P.heapMax) : Inv (heapGrow n s) P :=
  { h with
    heapLen := hmax
    heapZero := fun a ha => by
      have hlt : a < s.heap.len + n := ha
      rw [heapGrow_heap, read_appendZeros]
      by_cases hold : a < s.heap.len
      · rw [if_pos hold, h.heapZero a hold]
      · rw [if_neg hold, if_pos hlt]
    heapWf := wf_appendZeros h.heapWf n }

/-- The invariants hold at reset, over every value of the parameters. -/
theorem inv_resetAt (P : Params) (pcBits : Nat) : Inv (State.resetAt pcBits) P where
  heapLen := Nat.zero_le _
  heapZero _ ha := absurd ha (Nat.not_lt_zero _)
  progLen := Nat.zero_le _
  reserved := by simp [State.statusReserved]
  detail := by simp [State.detail]
  causeLegal := by simp [State.cause]
  heapWf := wf_empty
  progWf := wf_empty

/-- Every change an instruction makes keeps the invariants. -/
theorem Inv.after_change {i : Instr} (hs : Inv s P) (h : Change P i s t) : Inv t P := by
  cases h with
  | write | compare | jump => exact hs.of_frame rfl rfl rfl
  | grow r n _ hmax => exact (hs.after_growth hmax).of_frame rfl rfl rfl

/-- Every step keeps the invariants. -/
theorem Inv.after_step (hs : Inv s P) (h : stepWith P s = .next t) : Inv t P := by
  rcases stepWith_change h with rfl | ⟨c, b, rfl⟩ | ⟨-, i, -, hchange⟩
  · exact hs
  · exact hs.after_stop c b
  · exact hs.after_change hchange

/-! ### What a host operation can do (R160) -/

/-- One step is a run of no step or of one. -/
theorem runsTo_afterStep (P : Params) (s : State pcBits) : RunsTo s (afterStep s P) P := by
  obtain ⟨t, ht, hcases⟩ := stepWith_cases P s
  rw [afterStep_eq_of_stepWith ht]
  have active (hrun : s.stopped = false) (hend : s.atEnd = false) : RunsTo s t P :=
    .single ⟨by simp [State.active, hrun, hend], ht⟩
  rcases hcases with ⟨-, rfl⟩ | ⟨-, -, rfl⟩ | ⟨hrun, hend, -⟩ | ⟨hrun, hend, -⟩
  · exact .refl
  · exact .refl
  · exact active hrun hend
  · exact active hrun hend

/-- From a stopped block `run` takes no step (R152). -/
theorem RunsTo.eq_of_stopped (h : RunsTo s t P) (hs : s.stopped = true) : t = s := by
  rcases Relation.ReflTransGen.cases_head h with rfl | ⟨u, ⟨hactive, -⟩, -⟩
  · rfl
  · simp [State.active, hs] at hactive

/-- Runs keep the invariants. -/
theorem Inv.after_run (hs : Inv s P) (h : RunsTo s t P) : Inv t P := by
  induction h with
  | refl => exact hs
  | tail _ hstep ih => exact ih.after_step hstep.2

/-- `t` is `s` with bytes appended to its program, within the limit (R37). -/
def Appends (P : Params) (s t : State pcBits) : Prop :=
  ∃ bs, s.prog.len + bs.length ≤ P.progMax ∧ t = { s with prog := s.prog.appendList bs }

theorem appends_of_appendByte {b : Byte} (h : appendByte b s P = some t) : Appends P s t := by
  unfold appendByte at h
  split at h
  · next hfits => exact ⟨[b], hfits, (Option.some.inj h).symm⟩
  · cases h

theorem appends_of_appendWord {w : InstrWord} (h : appendWord w s P = some t) : Appends P s t := by
  unfold appendWord at h
  split at h
  · next hfits => exact ⟨w.bytes, hfits, (Option.some.inj h).symm⟩
  · cases h

/-- The bytes of a list of words are four for each word (R80). -/
theorem length_flatMap_bytes (ws : List InstrWord) : (ws.flatMap InstrWord.bytes).length = 4 * ws.length := by
  have hword (w : InstrWord) : w.bytes.length = 4 := rfl
  simp only [List.length_flatMap, hword, List.map_const', List.sum_replicate, smul_eq_mul, mul_comm]

/-- Appending a text's words leaves the block as it is or appends bytes that fit (R167). -/
theorem assembleAndAppend_cases {text : List Char} {reply : HostReply pcBits}
    (h : (t, reply) = assembleAndAppend text s P) : t = s ∨ Appends P s t := by
  unfold assembleAndAppend at h
  split at h
  · exact .inl (congrArg Prod.fst h)
  · next ws _ =>
    split at h
    · next hfits =>
      exact .inr ⟨ws.flatMap InstrWord.bytes, (length_flatMap_bytes ws).symm ▸ hfits, congrArg Prod.fst h⟩
    · exact .inl (congrArg Prod.fst h)

/-- The reply to an append goes with the appended state or with the old one. -/
theorem appendReply_cases {o : Option (State pcBits)} {reply : HostReply pcBits}
    (h : (t, reply) = appendReply s o) : t = s ∨ o = some t := by
  cases o with
  | none => exact .inl (congrArg Prod.fst h)
  | some u => exact .inr (congrArg some (congrArg Prod.fst h).symm)

/-- A host operation resets the block, appends program bytes that fit, or takes the steps of a run, maybe none. -/
theorem HostStep.cases {op : HostOp} {reply : HostReply pcBits} (h : HostStep op s t reply P) :
    (op = .reset ∧ t = State.resetAt pcBits) ∨ Appends P s t ∨ RunsTo s t P := by
  have unchanged (ht : t = s) : RunsTo s t P := ht ▸ .refl
  cases op with
  | reset => exact .inl ⟨rfl, congrArg Prod.fst h⟩
  | appendByte b => exact .inr ((appendReply_cases h).symm.imp appends_of_appendByte unchanged)
  | appendWord w => exact .inr ((appendReply_cases h).symm.imp appends_of_appendWord unchanged)
  | assembleAndAppend text => exact .inr ((assembleAndAppend_cases h).symm.imp_right unchanged)
  | singleStep =>
    obtain rfl : t = afterStep s P := congrArg Prod.fst h
    exact .inr (.inr (runsTo_afterStep P s))
  | run =>
    obtain ⟨r, ⟨hruns, -⟩, -⟩ := h
    exact .inr (.inr hruns)
  | read => exact .inr (.inr (unchanged (congrArg Prod.fst h)))

/-- Appending program bytes up to the limit keeps the invariants (R37). -/
theorem Inv.after_append (hs : Inv s P) (h : Appends P s t) : Inv t P := by
  obtain ⟨bs, hmax, rfl⟩ := h
  exact { hs with
    progLen := (appendList_len s.prog bs).trans_le hmax
    progWf := wf_appendList hs.progWf bs }

/-- Every host operation keeps the invariants. -/
theorem Inv.after_hostOp (hs : Inv s P) (h : HostReaches s t P) : Inv t P := by
  obtain ⟨op, reply, hstep⟩ := h
  rcases hstep.cases with ⟨-, rfl⟩ | happends | hruns
  · exact inv_resetAt P pcBits
  · exact hs.after_append happends
  · exact hs.after_run hruns

/-- Every reachable state meets the invariants, over every value of the parameters. -/
theorem Reachable.inv (h : Reachable s P) : Inv s P := by
  induction h with
  | refl => exact inv_resetAt P pcBits
  | tail _ hstep ih => exact ih.after_hostOp hstep

end StateRules

/-! ### The obligations -/

/-- Settles O45, by `Inv.after_step`; at the defaults the step is the parametric one. -/
theorem stepKeepsInvariants : Obligations.StepKeepsInvariants :=
  ⟨fun s _ hs h => hs.after_step ((stepWith_params s).trans h), fun _ _ _ _ hs h => hs.after_step h⟩

/-- Settles O21: a stop changes STATUS alone, and a completed instruction has the effect that
`Effect.registerWriter` gives. -/
theorem frameOfRegisterWriters : Obligations.FrameOfRegisterWriters := by
  intro l r d imm i s t hi h
  rcases exec_next h with ⟨c, b, rfl⟩ | he
  · exact ⟨fun _ _ => rfl, rfl, fun _ => rfl, fun _ => rfl, fun _ => rfl, .inl rfl, fun _ => rfl⟩
  · obtain ⟨k, v, m, hk, hm, rfl⟩ := he.registerWriter hi
    refine ⟨fun j hj => ?_, rfl, fun _ => rfl, fun _ => rfl, hm, .inr hk, fun hstatus => absurd rfl hstatus⟩
    have hjk : j ≠ k := fun hjk => hj (hjk ▸ hk)
    rw [advance_reg, setRem_reg, writeDest_reg, if_neg hjk]

/-- Settles O33: of the five changes only a comparison's touches FLAG. -/
theorem onlyComparisonsChangeFlag : Obligations.OnlyComparisonsChangeFlag := by
  intro s t h hne
  obtain ⟨-, i, hi, hchange⟩ := change_of_step_ne State.flag (fun _ _ => rfl) h hne
  cases hchange with
  | compare v hop => exact ⟨i, hi, hop⟩
  | write | jump | grow => exact absurd rfl hne

/-- Settles O34: of the five changes only the register write's touches REM, and then the instruction is DIV;
it leaves STATUS, so the block is running after it as before. -/
theorem onlyDivChangesRem : Obligations.OnlyDivChangesRem := by
  intro s t h hne
  obtain ⟨hrun, i, hi, hchange⟩ := change_of_step_ne State.rem (fun _ _ => rfl) h hne
  cases hchange with
  | write k v m _ hrem =>
    rcases hrem with rfl | ⟨l, r, d, rfl⟩
    · exact absurd rfl hne
    · exact ⟨hrun, l, r, d, hi⟩
  | compare | jump | grow => exact absurd rfl hne

/-- Settles O35: of the five changes only the register write's touches a register or LASTW, and it sets LASTW
to the register it writes. -/
theorem onlyLoadAndArithmeticChangeRegisters : Obligations.OnlyLoadAndArithmeticChangeRegisters := by
  intro s t h hne
  have hpair : (t.regs, t.lastw) ≠ (s.regs, s.lastw) := by
    rw [Ne, Prod.mk.injEq, not_and_or]
    exact hne
  obtain ⟨-, i, hi, hchange⟩ := change_of_step_ne (fun u => (u.regs, u.lastw)) (fun _ _ => rfl) h hpair
  cases hchange with
  | write k v m hop _ =>
    refine ⟨⟨i, hi, hop⟩, fun j hj => ?_⟩
    by_contra hjk
    exact hj ((writeDest_reg k v s j).trans (if_neg hjk))
  | compare | jump | grow => exact absurd rfl hpair

/-- Settles O36, by `step_prog`, `step_heap` and what growth by zeros leaves to read. -/
theorem heapOnlyGrowsAndProgramStays : Obligations.HeapOnlyGrowsAndProgramStays := by
  intro s t h
  refine ⟨step_prog h, ?_⟩
  rcases step_heap h with heq | ⟨r, n, hi, heq⟩
  · exact ⟨heq ▸ le_rfl, fun a _ => by rw [heq], fun hne => absurd heq hne⟩
  · exact ⟨heq ▸ Nat.le_add_right _ _, fun a ha => by rw [heq, read_appendZeros, if_pos ha], fun _ => ⟨r, hi⟩⟩

/-- Settles O41: what is left of `HostStep.cases` without reset is an append, and a run, which takes no step from
a stopped block. -/
theorem stopsAreTerminal : Obligations.StopsAreTerminal := by
  intro op s t reply hs hop h
  rcases h.cases with ⟨hreset, -⟩ | ⟨bs, -, rfl⟩ | hruns
  · exact absurd hreset hop
  · exact ⟨hs, bs, rfl⟩
  · obtain rfl := hruns.eq_of_stopped hs
    exact ⟨hs, [], rfl⟩

/-- Settles O46, by induction over the host's operations in `Reachable.inv`. -/
theorem reachableStatesMeetInvariants : Obligations.ReachableStatesMeetInvariants := fun _ h => h.inv

/-- Settles O26: `pc < L ≤ PROG_MAX = 2^31`, so `pc + 4` is below 2^32. -/
theorem sequentialAdvanceNeverWraps : Obligations.SequentialAdvanceNeverWraps := by
  intro s hs hpc
  have hlen : s.prog.len ≤ 2 ^ 31 := hs.progLen
  rw [advance_pc, BitVec.toNat_add_of_lt]
  · rfl
  · have : (4 : Pc).toNat = 4 := rfl
    omega

/-- Settles O38: STATUS as a number is `stopStatus_toNat` at the cause's code; the fields read back by the laws of
`stopState`. -/
theorem statusRecordsTheStop : Obligations.StatusRecordsTheStop := by
  intro b s p hp
  have hcode : p.1.code.toNat = p.2 := by
    revert p
    decide
  refine ⟨stopState p.1 b s, rfl, ?_, ?_, stopState_reserved .., stopState_detail .., stopState_stopped ..⟩
  · rw [stopState_status, stopStatus_toNat, hcode]
  · rw [stopState_cause, hcode]

/-- Settles O44, the spec's parameters in `inv_resetAt`. -/
theorem invariantsHoldAtReset : Obligations.InvariantsHoldAtReset := inv_resetAt params 32

end Sys2Proof.Machine

/-! ## Proofs: the program store (20_memory.md) -/

namespace Sys2Proof.Machine

section ProgramReads

variable {pcBits : Nat} {p : Memory} {s : State pcBits}

/-! ### The state on another program -/

/-- The same state with `p` for its program. -/
def withProg (p : Memory) (s : State pcBits) : State pcBits := { s with prog := p }

@[simp] theorem withProg_prog (p : Memory) (s : State pcBits) : (withProg p s).prog = p := rfl
@[simp] theorem withProg_pc (p : Memory) (s : State pcBits) : (withProg p s).pc = s.pc := rfl
@[simp] theorem withProg_reg (p : Memory) (s : State pcBits) (k : Fin nregs) : (withProg p s).reg k = s.reg k := rfl
@[simp] theorem withProg_stopped (p : Memory) (s : State pcBits) : (withProg p s).stopped = s.stopped := rfl

/-- Completion sees the program's length alone (R143). -/
theorem withProg_atEnd (hlen : p.len = s.prog.len) : (withProg p s).atEnd = s.atEnd := by
  simp only [State.atEnd, withProg_prog, withProg_pc, hlen]

/-- The same outcome with `p` for the next state's program. -/
def outcomeWithProg (p : Memory) : Outcome pcBits → Outcome pcBits
  | .next t => .next (withProg p t)
  | .fault r => .fault r
  | .refused r => .refused r

/-! ### A meaning neither reads nor writes the program -/

/-- A register operand in front of a continuation that does not see the program. -/
theorem withReg_withProg {b : Byte} {k k' : Fin nregs → Outcome pcBits}
    (h : ∀ j, k' j = outcomeWithProg p (k j)) :
    withReg b (withProg p s) k' = outcomeWithProg p (withReg b s k) := by
  rcases Nat.lt_or_ge b.toNat nregs with hb | hb
  · rw [withReg_of_lt hb, withReg_of_lt hb, h]
  · rw [withReg_of_ge hb, withReg_of_ge hb]
    rfl

theorem binaryOp_withProg (policy : OverflowPolicy) (f : Int → Int → Int) (l r d : Byte) :
    binaryOp policy f l r d (withProg p s) = outcomeWithProg p (binaryOp policy f l r d s) := by
  refine withReg_withProg fun i => withReg_withProg fun j => withReg_withProg fun k => ?_
  simp only [withProg_reg]
  cases narrow policy (f (s32 (s.reg i)) (s32 (s.reg j))) <;> rfl

theorem compareRegs_withProg (rel : Word → Word → Bool) (l r : Byte) :
    compareRegs rel l r (withProg p s) = outcomeWithProg p (compareRegs rel l r s) :=
  withReg_withProg fun _ => withReg_withProg fun _ => rfl

/-- An instruction does the same on every program, over every value of the parameters. -/
theorem execWith_withProg (P : Params) (i : Instr) :
    execWith P i (withProg p s) = outcomeWithProg p (execWith P i s) := by
  cases i with
  | hlt | illegal => rfl
  | load d imm =>
    unfold execWith execLoad
    exact withReg_withProg fun _ => rfl
  | jmp r =>
    unfold execWith execJmp
    exact withReg_withProg fun _ => rfl
  | jmpf r =>
    unfold execWith execJmpf
    exact withReg_withProg fun _ => rfl
  | jmpb r =>
    unfold execWith execJmpb
    exact withReg_withProg fun _ => rfl
  | add | sub | mul => exact binaryOp_withProg ..
  | eq | neq | gt | lt | gteq | lteq => exact compareRegs_withProg ..
  | div l r d =>
    unfold execWith divWith
    refine withReg_withProg fun i => withReg_withProg fun j => withReg_withProg fun k => ?_
    simp only [apply_ite (outcomeWithProg p)]
    rfl
  | jeq r =>
    unfold execWith jeqWith
    refine withReg_withProg fun i => ?_
    simp only [apply_ite (outcomeWithProg p)]
    rfl
  | alloc r =>
    unfold execWith allocWith
    refine withReg_withProg fun i => ?_
    simp only [apply_ite (outcomeWithProg p)]
    rfl

/-- A step does the same on another program of the same length that fetches the same. -/
theorem stepWith_withProg {P : Params} (hlen : p.len = s.prog.len)
    (hfetch : fetch P (withProg p s) = fetch P s) :
    stepWith P (withProg p s) = outcomeWithProg p (stepWith P s) := by
  unfold stepWith runStep
  rw [withProg_stopped, withProg_atEnd hlen, hfetch]
  split
  · rfl
  · split
    · rfl
    · cases fetch P s with
      | noByte | truncated => rfl
      | instr i => exact execWith_withProg P i

/-! ### The bytes fetched -/

/-- The reads from `a` on give the bytes up to the store's end, and none after it (R51). -/
theorem filterMap_read_range (m : Memory) (a n : Nat) :
    ((List.range n).filterMap fun k => m.read (a + k)) =
      (List.range (min n (m.len - a))).map fun k => Memory.lookup m.cells (a + k) := by
  induction n with
  | zero => simp
  | succ n ih =>
    rw [List.range_succ, List.filterMap_append, ih]
    rcases Nat.lt_or_ge (a + n) m.len with h | h
    · rw [Nat.min_eq_left (by omega), Nat.min_eq_left (by omega), List.range_succ, List.map_append]
      simp [read_of_lt h]
    · rw [Nat.min_eq_right (by omega), Nat.min_eq_right (by omega)]
      simp [read_of_ge h]

/-- How many bytes are fetched depends on the program's length and `pc` alone. -/
theorem length_fetchBytes (s : State pcBits) :
    (fetchBytes s).length = min 4 (s.prog.len - s.pc.toNat) := by
  unfold fetchBytes
  rw [filterMap_read_range, List.length_map, List.length_range]

/-- Byte `k` of the word fetched is the program's byte at `pc + k`. -/
theorem getElem?_fetchBytes (s : State pcBits) {k : Nat} (hk : k < 4) :
    (fetchBytes s)[k]? = s.prog.read (s.pc.toNat + k) := by
  unfold fetchBytes
  rw [filterMap_read_range, List.getElem?_map]
  rcases Nat.lt_or_ge (s.pc.toNat + k) s.prog.len with h | h
  · rw [List.getElem?_range (by omega), read_of_lt h]
    rfl
  · rw [List.getElem?_eq_none (by rw [List.length_range]; omega), read_of_ge h]
    rfl

/-! ### The decoder sees the used bytes alone (R91, R92) -/

/-- An instruction is formed from the operand bytes that its shape uses. -/
theorem formInstr_eq_of_used {op : Opcode} {b1 b2 b3 c1 c2 c3 : Byte} (b0 : Byte)
    (h1 : (shape op)[0]? ≠ some .unused → b1 = c1) (h2 : (shape op)[1]? ≠ some .unused → b2 = c2)
    (h3 : (shape op)[2]? ≠ some .unused → b3 = c3) :
    formInstr op b0 b1 b2 b3 = formInstr op b0 c1 c2 c3 := by
  cases op with
  | halt | illegal => rfl
  | load | add | sub | mul | div => rw [h1 (by decide), h2 (by decide), h3 (by decide)]
  | eq | neq | gt | lt | gteq | lteq =>
    rw [h1 (by decide), h2 (by decide)]
    rfl
  | jmp | jmpf | jmpb | jeq | alloc =>
    rw [h1 (by decide)]
    rfl

/-- Byte sequences of one length that agree at the opcode byte and at the operand bytes its shape uses decode
alike. -/
theorem decode_eq_of_used {bs cs : List Byte} {code : Opcode → Byte} (hlen : bs.length = cs.length)
    (hop : bs[0]? = cs[0]?)
    (hused : ∀ k b0, k < 3 → cs[0]? = some b0 → (shape (byteToOpcode b0 code))[k]? ≠ some .unused →
      bs[1 + k]? = cs[1 + k]?) :
    decode bs code = decode cs code := by
  match bs, cs, hlen with
  | [], [], _ => rfl
  | b0 :: bs, c0 :: cs, hlen =>
    obtain rfl : b0 = c0 := Option.some.inj hop
    have hrest (k : Nat) (hk : k < 3) (hkind : (shape (byteToOpcode b0 code))[k]? ≠ some .unused) :
        bs[k]? = cs[k]? := by
      simpa [Nat.add_comm 1 k] using hused k b0 hk rfl hkind
    unfold decode
    dsimp only
    split
    · rfl
    · match bs, cs, hlen with
      | [], [], _ | [_], [_], _ | [_, _], [_, _], _ => rfl
      | b1 :: b2 :: b3 :: _, c1 :: c2 :: c3 :: _, _ =>
        exact congrArg Decoded.instr (formInstr_eq_of_used b0
          (fun hkind => Option.some.inj (hrest 0 (by decide) hkind))
          (fun hkind => Option.some.inj (hrest 1 (by decide) hkind))
          (fun hkind => Option.some.inj (hrest 2 (by decide) hkind)))

/-- On a program of the same length that agrees at `pc` and at the used operand bytes, the fetch is the same. -/
theorem fetch_withProg {P : Params} (hlen : p.len = s.prog.len)
    (hop : p.read s.pc.toNat = s.prog.read s.pc.toNat)
    (hused : ∀ k b0, k < 3 → s.prog.read s.pc.toNat = some b0 →
      (shape (byteToOpcode b0 P.opcodeCode))[k]? ≠ some .unused →
      p.read (s.pc.toNat + 1 + k) = s.prog.read (s.pc.toNat + 1 + k)) :
    fetch P (withProg p s) = fetch P s := by
  refine decode_eq_of_used ?_ ?_ fun k b0 hk hb0 hkind => ?_
  · rw [length_fetchBytes, length_fetchBytes, withProg_prog, withProg_pc, hlen]
  · rw [getElem?_fetchBytes _ (by decide), getElem?_fetchBytes _ (by decide)]
    exact hop
  · rw [getElem?_fetchBytes s (by decide)] at hb0
    rw [getElem?_fetchBytes _ (by omega), getElem?_fetchBytes _ (by omega)]
    simpa only [withProg_prog, withProg_pc, Nat.add_assoc] using hused k b0 hk hb0 hkind

end ProgramReads

/-- Settles O15: the fetch is the same by `fetch_withProg`, and everything after it is by `stepWith_withProg`. -/
theorem stepReadsOnlyItsWord : Obligations.StepReadsOnlyItsWord := by
  intro s t p hlen hop hused h
  have hstep : step (withProg p s) = outcomeWithProg p (step s) := by
    rw [← stepWith_params, ← stepWith_params]
    exact stepWith_withProg hlen (fetch_withProg hlen hop hused)
  exact hstep.trans (congrArg (outcomeWithProg p) h)

end Sys2Proof.Machine

/-! ## Proofs: the opcode table, decoding and encoding (30_encoding.md) -/

namespace Sys2Proof

section OpcodeTable

/-! ### The lookups of R86 and R93, each said once by the cases it has -/

variable {code : Opcode → Byte}

theorem mem_defined_iff {op : Opcode} : op ∈ Opcode.defined ↔ op ≠ .illegal := by
  cases op <;> decide

/-- The 17 default codes are the bytes 0x00 to 0x10, in the table's order (R84). -/
theorem map_opcodeCode_defined :
    Opcode.defined.map opcodeCode = (List.range 17).map (BitVec.ofNat 8) := rfl

theorem exists_opcodeCode_eq_iff {b : Byte} :
    (∃ op ∈ Opcode.defined, opcodeCode op = b) ↔ b.toNat ≤ 0x10 := by
  rw [← List.mem_map, map_opcodeCode_defined, List.mem_map]
  constructor
  · rintro ⟨n, hn, rfl⟩
    have hn' : n < 17 := List.mem_range.mp hn
    rw [BitVec.toNat_ofNat]
    omega
  · intro hb
    exact ⟨b.toNat, List.mem_range.mpr (by omega), BitVec.ofNat_toNat 8 b⟩

/-- The lookup of a byte hits a defined opcode with that code, or misses and no defined opcode has it. -/
theorem byteToOpcode_cases (b : Byte) (code : Opcode → Byte) :
    (byteToOpcode b code ∈ Opcode.defined ∧ code (byteToOpcode b code) = b) ∨
      (byteToOpcode b code = .illegal ∧ ∀ op ∈ Opcode.defined, code op ≠ b) := by
  unfold byteToOpcode
  cases hfind : Opcode.defined.find? fun op => code op == b with
  | none => exact .inr ⟨rfl, by simpa using hfind⟩
  | some op => exact .inl ⟨List.mem_of_find?_eq_some hfind, by simpa using List.find?_some hfind⟩

theorem byteToOpcode_eq_illegal_iff {b : Byte} :
    byteToOpcode b code = .illegal ↔ ∀ op ∈ Opcode.defined, code op ≠ b := by
  rcases byteToOpcode_cases b code with ⟨hmem, hcode⟩ | ⟨hill, hmiss⟩
  · exact ⟨fun hill => absurd hill (mem_defined_iff.mp hmem), fun hmiss => absurd hcode (hmiss _ hmem)⟩
  · exact ⟨fun _ => hmiss, fun _ => hill⟩

/-- Where the codes of the defined opcodes differ (D1), the lookup inverts them. -/
theorem byteToOpcode_code
    (hinj : ∀ op ∈ Opcode.defined, ∀ op' ∈ Opcode.defined, code op = code op' → op = op')
    {op : Opcode} (hop : op ∈ Opcode.defined) : byteToOpcode (code op) code = op := by
  rcases byteToOpcode_cases (code op) code with ⟨hmem, hcode⟩ | ⟨-, hmiss⟩
  · exact hinj _ hmem _ hop hcode
  · exact absurd rfl (hmiss op hop)

theorem opcodeCode_injOn_defined :
    ∀ op ∈ Opcode.defined, ∀ op' ∈ Opcode.defined, opcodeCode op = opcodeCode op' → op = op' := by
  decide

/-- The round trip of R94, ILLEGAL's canonical byte included. -/
theorem byteToOpcode_opcodeToByte (op : Opcode) : byteToOpcode (opcodeToByte op) = op := by
  by_cases hill : op = .illegal
  · subst hill
    rfl
  · exact byteToOpcode_code opcodeCode_injOn_defined (mem_defined_iff.mpr hill)

/-- The lookup of a text hits a row of the table, or misses. -/
theorem mnemonicToOpcode_cases (text : List Char) :
    (text, mnemonicToOpcode text) ∈ mnemonicTable ∨ mnemonicToOpcode text = .illegal := by
  unfold mnemonicToOpcode
  cases hfind : mnemonicTable.find? fun row => row.1 == text with
  | none => exact .inr rfl
  | some row =>
    have hrow : row.1 = text := by simpa using List.find?_some hfind
    exact .inl (hrow ▸ List.mem_of_find?_eq_some hfind)

/-- No row of the table names ALLOC (R93, R130). -/
theorem mnemonicToOpcode_ne_alloc (text : List Char) : mnemonicToOpcode text ≠ .alloc := by
  have hrows : Opcode.alloc ∉ mnemonicTable.map Prod.snd := by decide
  rcases mnemonicToOpcode_cases text with hrow | hill
  · exact fun halloc => hrows (halloc ▸ List.mem_map_of_mem hrow)
  · simp [hill]

end OpcodeTable

section Words

/-! ### A word and its instruction: forming the instruction and taking its bytes are inverse up to unused bytes -/

variable {code : Opcode → Byte}

/-- R83's immediate, big-endian, is put together again from its two bytes. -/
theorem immediate_immHighByte_immLowByte (v : Imm16) : immediate (immHighByte v) (immLowByte v) = v :=
  (BitVec.extractLsb'_append_extractLsb'_eq_extractLsb' rfl).trans BitVec.extractLsb'_eq_self

@[simp] theorem immHighByte_immediate (b2 b3 : Byte) : immHighByte (immediate b2 b3) = b2 :=
  BitVec.extractLsb'_append_eq_left

@[simp] theorem immLowByte_immediate (b2 b3 : Byte) : immLowByte (immediate b2 b3) = b3 :=
  BitVec.extractLsb'_append_eq_right

/-- Operand bytes with 0 in the slots that the kinds leave unused (R91). -/
def clearUnused (kinds : List SlotKind) (bytes : List Byte) : List Byte :=
  List.zipWith (fun k b => if k = .unused then 0 else b) kinds bytes

theorem opcodeOf_formInstr (op : Opcode) (b0 b1 b2 b3 : Byte) : opcodeOf (formInstr op b0 b1 b2 b3) = op := by
  cases op <;> rfl

theorem operandBytes_formInstr (op : Opcode) (b0 b1 b2 b3 : Byte) :
    operandBytes (formInstr op b0 b1 b2 b3) = clearUnused (shape op) [b1, b2, b3] := by
  cases op with
  | load =>
    simp only [formInstr, operandBytes, immHighByte_immediate, immLowByte_immediate]
    rfl
  | _ => rfl

theorem opcodeByte_of_ne_illegal {i : Instr} (h : opcodeOf i ≠ .illegal) :
    opcodeByte i code = code (opcodeOf i) := by
  cases i with
  | illegal b0 => exact absurd rfl h
  | _ => rfl

theorem wellFormed_of_ne_illegal {i : Instr} (h : opcodeOf i ≠ .illegal) : wellFormed i code = true := by
  cases i with
  | illegal b0 => exact absurd rfl h
  | _ => rfl

theorem wellFormed_illegal_iff {b0 : Byte} :
    wellFormed (.illegal b0) code = true ↔ byteToOpcode b0 code = .illegal := by
  simp [byteToOpcode_eq_illegal_iff, wellFormed]

/-- What a byte's opcode is formed to is well formed, and keeps the byte (R90). -/
theorem formInstr_byteToOpcode (b0 b1 b2 b3 : Byte) (code : Opcode → Byte) :
    wellFormed (formInstr (byteToOpcode b0 code) b0 b1 b2 b3) code = true ∧
      opcodeByte (formInstr (byteToOpcode b0 code) b0 b1 b2 b3) code = b0 := by
  rcases byteToOpcode_cases b0 code with ⟨hmem, hcode⟩ | ⟨hill, -⟩
  · have hne : opcodeOf (formInstr (byteToOpcode b0 code) b0 b1 b2 b3) ≠ .illegal := by
      rw [opcodeOf_formInstr]
      exact mem_defined_iff.mp hmem
    refine ⟨wellFormed_of_ne_illegal hne, ?_⟩
    rw [opcodeByte_of_ne_illegal hne, opcodeOf_formInstr, hcode]
  · rw [hill]
    exact ⟨wellFormed_illegal_iff.mpr hill, rfl⟩

/-- The opcode byte of a well-formed instruction names its opcode. -/
theorem byteToOpcode_opcodeByte
    (hinj : ∀ op ∈ Opcode.defined, ∀ op' ∈ Opcode.defined, code op = code op' → op = op')
    {i : Instr} (hwf : wellFormed i code = true) : byteToOpcode (opcodeByte i code) code = opcodeOf i := by
  by_cases hill : opcodeOf i = .illegal
  · cases i with
    | illegal b0 => exact wellFormed_illegal_iff.mp hwf
    | _ => cases hill
  · rw [opcodeByte_of_ne_illegal hill]
    exact byteToOpcode_code hinj (mem_defined_iff.mpr hill)

/-- An instruction is formed again from its own opcode and bytes. -/
theorem formInstr_operandBytes (i : Instr) (code : Opcode → Byte) :
    ∃ b1 b2 b3, operandBytes i = [b1, b2, b3] ∧ formInstr (opcodeOf i) (opcodeByte i code) b1 b2 b3 = i := by
  cases i with
  | load d imm => exact ⟨_, _, _, rfl, congrArg (Instr.load d) (immediate_immHighByte_immLowByte imm)⟩
  | _ => exact ⟨_, _, _, rfl, rfl⟩

/-- R92: four bytes, whatever follows them, decode to what the first one's opcode forms of them. HALT and ILLEGAL,
which decode from one byte, form the same from any others. -/
theorem decode_word (b0 b1 b2 b3 : Byte) (more : List Byte) (code : Opcode → Byte) :
    decode (b0 :: b1 :: b2 :: b3 :: more) code = .instr (formInstr (byteToOpcode b0 code) b0 b1 b2 b3) := by
  unfold decode
  dsimp only
  split
  · next hlen =>
    generalize byteToOpcode b0 code = op at hlen
    cases op with
    | halt | illegal => rfl
    | _ => exact absurd hlen (by decide)
  · rfl

/-- Decoding inverts encoding at every numbering that keeps the 17 opcodes apart. -/
theorem decode_encode_append
    (hinj : ∀ op ∈ Opcode.defined, ∀ op' ∈ Opcode.defined, code op = code op' → op = op')
    {i : Instr} (hwf : wellFormed i code = true) (more : List Byte) :
    decode (encode i code ++ more) code = .instr i := by
  obtain ⟨b1, b2, b3, hbytes, hform⟩ := formInstr_operandBytes i code
  have hdec := decode_word (opcodeByte i code) b1 b2 b3 more code
  rw [byteToOpcode_opcodeByte hinj hwf, hform] at hdec
  simpa [encode, hbytes] using hdec

end Words

/-- Settles O5, by `decode_encode_append`. -/
theorem decodeInvertsEncode : Obligations.DecodeInvertsEncode :=
  fun _ hinj _ more hwf => decode_encode_append hinj hwf more

/-- Settles O6: the word decodes to what its first byte's opcode forms (`decode_word`), whose word is given by
`formInstr_byteToOpcode` and `operandBytes_formInstr`. -/
theorem everyWordDecodes : Obligations.EveryWordDecodes := by
  intro b0 b1 b2 b3
  obtain ⟨hwf, hbyte⟩ := formInstr_byteToOpcode b0 b1 b2 b3 opcodeCode
  refine ⟨_, decode_word b0 b1 b2 b3 [] opcodeCode, hwf, opcodeOf_formInstr .., ?_⟩
  rw [encode, hbyte, operandBytes_formInstr]
  rfl

/-- Settles O1: the round trip is `byteToOpcode_opcodeToByte`; the mnemonics are 16 closed lookups. -/
theorem opcodeTableRoundTrips : Obligations.OpcodeTableRoundTrips :=
  ⟨byteToOpcode_opcodeToByte, rfl, by decide⟩

/-- Settles O2: the 16 texts are the table's, so the lookup misses (`mnemonicToOpcode_cases`). -/
theorem otherTextsAreIllegal : Obligations.OtherTextsAreIllegal := by
  intro text hother
  rcases mnemonicToOpcode_cases text with hrow | hill
  · exact absurd (List.mem_map_of_mem (f := Prod.fst) hrow) hother
  · exact hill

/-- Settles O3: a byte is a defined opcode's code exactly when it is at most 0x10 (`exists_opcodeCode_eq_iff`). -/
theorem opcodeBytesAreTotal : Obligations.OpcodeBytesAreTotal := by
  intro b
  rcases byteToOpcode_cases b opcodeCode with ⟨hmem, hcode⟩ | ⟨hill, hmiss⟩
  · have hle : b.toNat ≤ 0x10 := exists_opcodeCode_eq_iff.mp ⟨_, hmem, hcode⟩
    exact ⟨fun _ => ⟨mem_defined_iff.mp hmem, hcode⟩, fun hge => by omega⟩
  · refine ⟨fun hle => ?_, fun _ => hill⟩
    obtain ⟨op, hop, hcode⟩ := exists_opcodeCode_eq_iff.mpr hle
    exact absurd hcode (hmiss op hop)

/-- Settles O4: the nine words one by one. -/
theorem writtenOutWordsDecode : Obligations.WrittenOutWordsDecode := by
  unfold Obligations.WrittenOutWordsDecode
  decide

end Sys2Proof

/-! ## Proofs: the lexer (30_encoding.md) -/

namespace Sys2Proof.Machine

section Lexer

/-! ### Character classes and maximal runs (R102 to R109) -/

theorem isWhitespace_iff {c : Char} : isWhitespace c = true ↔ c ∈ [' ', '\t', '\n', '\r'] := by
  simp [isWhitespace, or_assoc]

theorem isDigit_iff {c : Char} : isDigit c = true ↔ '0'.toNat ≤ c.toNat ∧ c.toNat ≤ '9'.toNat :=
  decide_eq_true_iff

theorem isIdentChar_iff {c : Char} :
    isIdentChar c = true ↔ ('A'.toNat ≤ c.toNat ∧ c.toNat ≤ 'Z'.toNat) ∨
      ('a'.toNat ≤ c.toNat ∧ c.toNat ≤ 'z'.toNat) ∨ c = '_' := by
  simp [isIdentChar, or_assoc]

/-- The characters that end a run of another kind and begin none: whitespace and the sigils. -/
def delimiters : List Char := [' ', '\t', '\n', '\r', '$', '#']

theorem not_mem_delimiters {c : Char} (h : isIdentChar c = true ∨ isDigit c = true) : c ∉ delimiters := by
  have hnone : ∀ d ∈ delimiters, ¬ (isIdentChar d = true ∨ isDigit d = true) := by
    simp [delimiters, isIdentChar, isDigit]
  exact fun hmem => hnone c hmem h

theorem not_isIdentChar_of_isDigit {c : Char} (h : isDigit c = true) : ¬ isIdentChar c = true := by
  rw [isIdentChar_iff]
  obtain ⟨-, hle⟩ := isDigit_iff.mp h
  rintro (⟨hge, -⟩ | ⟨hge, -⟩ | rfl)
  · exact absurd (hge.trans hle) (by decide)
  · exact absurd (hge.trans hle) (by decide)
  · exact absurd hle (by decide)

/-- A maximal run is what `takeWhile` takes, and `dropWhile` leaves what follows it. -/
theorem takeWhile_dropWhile_of_run {p : Char → Bool} {run rest : List Char} (hrun : ∀ c ∈ run, p c = true)
    (hrest : ∀ c, rest.head? = some c → ¬ p c = true) :
    (run ++ rest).takeWhile p = run ∧ (run ++ rest).dropWhile p = rest := by
  rw [List.takeWhile_append_of_pos hrun, List.dropWhile_append_of_pos hrun]
  cases rest with
  | nil => simp
  | cons c rest => simp [hrest c rfl]

/-- The value of a literal is its digits' number in base ten, the last digit the lowest. -/
theorem decimalValue_eq_ofDigits (ds : List Char) :
    decimalValue ds = Nat.ofDigits 10 (ds.reverse.map fun c => c.toNat - '0'.toNat) := by
  rw [Nat.ofDigits_eq_foldr, List.foldr_map, List.foldr_reverse]
  exact congrArg (fun f => ds.foldl f 0) (funext₂ fun n c => Nat.add_comm _ _)

/-! ### What one pull takes -/

theorem pullToken_whitespace_append {ws : List Char} (hws : ∀ c ∈ ws, isWhitespace c = true) (text : List Char) :
    pullToken (ws ++ text) = pullToken text := by
  unfold pullToken
  rw [List.dropWhile_append_of_pos hws]

theorem pullToken_dollar (rest : List Char) :
    pullToken ('$' :: rest) = sigilLiteral 255 (fun n => .register (BitVec.ofNat 8 n)) rest := rfl

theorem pullToken_hash (rest : List Char) :
    pullToken ('#' :: rest) = sigilLiteral 32767 (fun n => .integer (BitVec.ofNat 16 n)) rest := rfl

/-- The pull at a character that is neither whitespace nor a sigil, by the character's class. -/
theorem pullToken_of_not_delimiter {c : Char} (h : c ∉ delimiters) (rest : List Char) :
    pullToken (c :: rest) =
      if isIdentChar c then
        (.operator (mnemonicToOpcode (c :: rest.takeWhile isIdentChar)), rest.dropWhile isIdentChar)
      else if isDigit c then (.operator .illegal, rest.dropWhile isDigit)
      else (.operator .illegal, rest) := by
  simp only [delimiters, List.mem_cons, List.not_mem_nil, or_false, not_or] at h
  obtain ⟨hspace, htab, hnewline, hreturn, hdollar, hhash⟩ := h
  have hnot : ¬ isWhitespace c = true := by
    simp [isWhitespace, hspace, htab, hnewline, hreturn]
  unfold pullToken
  rw [List.dropWhile_cons_of_neg hnot]
  simp only [tokenAt, beq_iff_eq, if_neg hdollar, if_neg hhash]

/-- A sigil's maximal run of digits, when there is one, is the literal. -/
theorem sigilLiteral_of_digits {ds rest : List Char} (max : Nat) (mk : Nat → Token) (hne : ds ≠ [])
    (hds : ∀ c ∈ ds, isDigit c = true) (hrest : ∀ c, rest.head? = some c → ¬ isDigit c = true) :
    sigilLiteral max mk (ds ++ rest) =
      (if decimalValue ds ≤ max then mk (decimalValue ds) else .operator .illegal, rest) := by
  obtain ⟨htake, hdrop⟩ := takeWhile_dropWhile_of_run hds hrest
  unfold sigilLiteral
  rw [htake, hdrop]
  exact if_neg (by simpa using hne)

theorem sigilLiteral_of_no_digit {rest : List Char} (max : Nat) (mk : Nat → Token)
    (hrest : ∀ c, rest.head? = some c → ¬ isDigit c = true) :
    sigilLiteral max mk rest = (.operator .illegal, rest) := by
  obtain ⟨htake, -⟩ := takeWhile_dropWhile_of_run (run := []) (by simp) hrest
  unfold sigilLiteral
  rw [← List.nil_append rest, htake]
  rfl

theorem sigilLiteral_ne_alloc {mk : Nat → Token} (hmk : ∀ n, mk n ≠ .operator .alloc) (max : Nat)
    (rest : List Char) : (sigilLiteral max mk rest).1 ≠ .operator .alloc := by
  unfold sigilLiteral
  dsimp only
  split
  · simp
  · split
    · exact hmk _
    · simp

theorem tokenAt_ne_alloc (c : Char) (rest : List Char) : (tokenAt c rest).1 ≠ .operator .alloc := by
  unfold tokenAt
  split
  · exact sigilLiteral_ne_alloc (by simp) _ _
  split
  · exact sigilLiteral_ne_alloc (by simp) _ _
  split
  · exact fun h => mnemonicToOpcode_ne_alloc _ (Token.operator.inj h)
  split <;> simp

/-- No pull gives an ALLOC operator (R130). -/
theorem pullToken_ne_alloc (text : List Char) : (pullToken text).1 ≠ .operator .alloc := by
  unfold pullToken
  split
  · simp
  · exact tokenAt_ne_alloc _ _

/-- The token sequence is pulled tokens, none of them `End`, and then `End`. -/
theorem lex_eq_pulled_append_eof (text : List Char) :
    ∃ ts, lex text = ts ++ [.eof] ∧ ∀ t ∈ ts, t ≠ .eof ∧ ∃ text', t = (pullToken text').1 := by
  rcases pullToken_cases text with hend | ⟨hne, hlt⟩
  · refine ⟨[], ?_, by simp⟩
    rw [lex_eq, hend]
    rfl
  · obtain ⟨ts, hts, hpulled⟩ := lex_eq_pulled_append_eof (pullToken text).2
    refine ⟨(pullToken text).1 :: ts, ?_, List.forall_mem_cons.mpr ⟨⟨hne, text, rfl⟩, hpulled⟩⟩
    rw [lex_eq, if_neg hne, hts, List.cons_append]
termination_by text.length

end Lexer

/-- Settles O52, by `lex_eq_pulled_append_eof`. -/
theorem lexingEndsInEnd : Obligations.LexingEndsInEnd := by
  intro text
  obtain ⟨ts, hts, hpulled⟩ := lex_eq_pulled_append_eof text
  exact ⟨ts, hts, fun hmem => (hpulled _ hmem).1 rfl⟩

/-- Settles O53: the first pull is the same, and it determines the sequence (`lex_eq`). -/
theorem lexingSkipsWhitespace : Obligations.LexingSkipsWhitespace := by
  intro ws text hws
  rw [lex_eq, pullToken_whitespace_append (fun c hc => isWhitespace_iff.mpr (hws c hc)), ← lex_eq]

/-- Settles O54: both sigils are `sigilLiteral` at their limit. -/
theorem sigilLiterals : Obligations.SigilLiterals := by
  simp only [Obligations.SigilLiterals, ← isDigit_iff, ← decimalValue_eq_ofDigits, pullToken_dollar,
    pullToken_hash]
  exact ⟨fun ds rest hne hds hrest =>
      ⟨sigilLiteral_of_digits _ _ hne hds hrest, sigilLiteral_of_digits _ _ hne hds hrest⟩,
    fun rest hrest => ⟨sigilLiteral_of_no_digit _ _ hrest, sigilLiteral_of_no_digit _ _ hrest⟩⟩

/-- Settles O55: the three branches of `pullToken_of_not_delimiter`, the runs by `takeWhile_dropWhile_of_run`. -/
theorem identifiersAndOtherCharacters : Obligations.IdentifiersAndOtherCharacters := by
  simp only [Obligations.IdentifiersAndOtherCharacters, ← isDigit_iff, ← isIdentChar_iff]
  refine ⟨fun cs rest hne hcs hrest => ?_, fun ds rest hne hds hrest => ?_, fun c rest hident hdigit hc => ?_⟩
  · obtain ⟨c, cs, rfl⟩ := List.exists_cons_of_ne_nil hne
    obtain ⟨hc, hcs⟩ := List.forall_mem_cons.mp hcs
    obtain ⟨htake, hdrop⟩ := takeWhile_dropWhile_of_run hcs hrest
    rw [List.cons_append, pullToken_of_not_delimiter (not_mem_delimiters (.inl hc)), if_pos hc, htake,
      hdrop]
  · obtain ⟨d, ds, rfl⟩ := List.exists_cons_of_ne_nil hne
    obtain ⟨hd, hds⟩ := List.forall_mem_cons.mp hds
    obtain ⟨-, hdrop⟩ := takeWhile_dropWhile_of_run hds hrest
    rw [List.cons_append, pullToken_of_not_delimiter (not_mem_delimiters (.inr hd)),
      if_neg (not_isIdentChar_of_isDigit hd), if_pos hd, hdrop]
  · rw [pullToken_of_not_delimiter hc, if_neg hident, if_neg hdigit]

end Sys2Proof.Machine

/-! ## Proofs: the assembler (30_encoding.md) -/

namespace Sys2Proof.Machine

section Assembler

variable {code : Opcode → Byte}

/-! ### Operand tokens of the right kinds -/

/-- The word bytes an operand token stands for (R117 to R120). -/
def operandTokenBytes : Token → List Byte
  | .register i => [i]
  | .integer v => [immHighByte v, immLowByte v]
  | .operator _ | .eof => []

/-- The token is of the kind the position needs, so its bytes are taken. -/
def Fits (k : OperandKind) (t : Token) : Prop := takeOperand k t = .ok (operandTokenBytes t)

theorem fits_iff {k : OperandKind} {t : Token} :
    Fits k t ↔ (k = .register ∧ ∃ x, t = .register x) ∨ (k = .integer ∧ ∃ v, t = .integer v) := by
  cases k <;> cases t <;> simp [Fits, takeOperand, operandTokenBytes]

theorem takeOperand_operator (k : OperandKind) (op : Opcode) :
    takeOperand k (.operator op) = .error .operatorInOperandPosition := by
  cases k <;> rfl

theorem takeOperand_eof (k : OperandKind) : takeOperand k .eof = .error .prematureEnd := by
  cases k <;> rfl

/-- Tokens of the right kinds in front of further positions and tokens put their bytes in front of what those
give, and leave their fault. -/
theorem readOperands_append {before : List OperandKind} {pre : List Token} (hpre : List.Forall₂ Fits before pre)
    (ks : List OperandKind) (ts : List Token) :
    readOperands (before ++ ks) (pre ++ ts) =
      (readOperands ks ts).map (Prod.map (pre.flatMap operandTokenBytes ++ ·) id) := by
  induction hpre with
  | nil =>
    rw [List.nil_append, List.nil_append]
    cases readOperands ks ts <;> rfl
  | @cons k t _ _ hfits _ ih =>
    have htake : takeOperand k t = .ok (operandTokenBytes t) := hfits
    simp only [List.cons_append, readOperands, nextToken, htake, ih]
    cases readOperands ks ts with
    | error f => rfl
    | ok r =>
      obtain ⟨more, rest⟩ := r
      simp [Except.map]

/-! ### An invocation that begins with an operator (R116) -/

theorem assemble_of_readOperands_ok {op : Opcode} {ts rest : List Token} {bytes : List Byte}
    (h : readOperands (asmShape op) ts = .ok (bytes, rest)) :
    assemble (.operator op :: ts) code = (assemble rest code).cons (emitWord op bytes code) := by
  rw [assemble_eq]
  simp only [pullInstr, nextToken, h]

theorem assemble_of_readOperands_error {op : Opcode} {ts : List Token} {f : SyntaxFault}
    (h : readOperands (asmShape op) ts = .error f) : assemble (.operator op :: ts) code = .fault f := by
  rw [assemble_eq]
  simp only [pullInstr, nextToken, h]

/-- An operator with the operands of its shape emits its word in front of the rest. -/
theorem assemble_operator_append {op : Opcode} {pre : List Token} (hpre : List.Forall₂ Fits (asmShape op) pre)
    (ts : List Token) :
    assemble (.operator op :: (pre ++ ts)) code =
      (assemble ts code).cons (emitWord op (pre.flatMap operandTokenBytes) code) := by
  have hread := readOperands_append hpre [] ts
  rw [List.append_nil] at hread
  simpa using assemble_of_readOperands_ok hread

/-- The shapes whose operands are all registers. -/
theorem assemble_operator_registers {op : Opcode} {xs : List Byte}
    (hshape : asmShape op = xs.map fun _ => .register) (ts : List Token) :
    assemble (.operator op :: (xs.map .register ++ ts)) code = (assemble ts code).cons (emitWord op xs code) := by
  have hfits : List.Forall₂ Fits (asmShape op) (xs.map .register) := by
    rw [hshape, List.forall₂_map_left_iff, List.forall₂_map_right_iff]
    exact List.forall₂_same.mpr fun _ _ => rfl
  simpa [List.flatMap_map, operandTokenBytes] using assemble_operator_append hfits ts

/-- After operands of the right kinds, a token that a position does not take is the invocation's fault. -/
theorem assemble_operand_fault {op : Opcode} {before after : List OperandKind} {k : OperandKind}
    {pre : List Token} {f : SyntaxFault} (hshape : asmShape op = before ++ k :: after)
    (hpre : List.Forall₂ Fits before pre) (ts : List Token) (hfault : takeOperand k (nextToken ts).1 = .error f) :
    assemble (.operator op :: (pre ++ ts)) code = .fault f := by
  refine assemble_of_readOperands_error ?_
  rw [hshape, readOperands_append hpre, readOperands, hfault]
  rfl

/-! ### Where the words of an invocation come from -/

/-- The bytes an operand position fills. -/
def operandWidth : OperandKind → Nat
  | .register => 1
  | .integer => 2

theorem length_of_takeOperand {k : OperandKind} {t : Token} {bytes : List Byte}
    (h : takeOperand k t = .ok bytes) : bytes.length = operandWidth k := by
  cases k <;> cases t <;> cases h <;> rfl

theorem nextToken_suffix (ts : List Token) : (nextToken ts).2 <:+ ts := by
  cases ts with
  | nil => exact List.suffix_rfl
  | cons t ts => exact List.suffix_cons t ts

/-- Operands read fill their shape's bytes, and what is left is the end of the tokens. -/
theorem readOperands_ok {ks : List OperandKind} {ts rest : List Token} {bytes : List Byte}
    (h : readOperands ks ts = .ok (bytes, rest)) :
    bytes.length = (ks.map operandWidth).sum ∧ rest <:+ ts := by
  induction ks generalizing ts bytes with
  | nil =>
    cases h
    exact ⟨rfl, List.suffix_rfl⟩
  | cons k ks ih =>
    unfold readOperands at h
    cases htake : takeOperand k (nextToken ts).1 with
    | error f => simp [htake] at h
    | ok first =>
      cases hmore : readOperands ks (nextToken ts).2 with
      | error f => simp [htake, hmore] at h
      | ok r =>
        simp only [htake, hmore] at h
        cases h
        obtain ⟨hlen, hsuffix⟩ := ih hmore
        exact ⟨by simp [length_of_takeOperand htake, hlen], hsuffix.trans (nextToken_suffix ts)⟩

theorem cons_eq_words {w : InstrWord} {a : Assembled} {ws : List InstrWord} (h : a.cons w = .words ws) :
    ∃ ws', a = .words ws' ∧ ws = w :: ws' := by
  cases a with
  | fault f => cases h
  | words ws' =>
    cases h
    exact ⟨ws', rfl, rfl⟩

/-- Every word of a successful invocation is emitted for an operator among the tokens, with operand bytes that
fill its shape. -/
theorem exists_operator_of_mem_words {ts : List Token} {ws : List InstrWord} (h : assemble ts code = .words ws)
    {w : InstrWord} (hw : w ∈ ws) :
    ∃ op bytes, Token.operator op ∈ ts ∧ bytes.length = ((asmShape op).map operandWidth).sum ∧
      w = emitWord op bytes code := by
  rw [assemble_eq] at h
  cases hpull : pullInstr ts code with
  | mk item rest =>
    rw [hpull] at h
    cases item with
    | fault f => cases h
    | done =>
      cases h
      cases hw
    | word first =>
      have hshorter := pullInstr_length hpull
      obtain ⟨op, more, bytes, rfl, hread, rfl⟩ := pullInstr_word hpull
      obtain ⟨hlen, hsuffix⟩ := readOperands_ok hread
      obtain ⟨ws', hrest, rfl⟩ := cons_eq_words h
      rcases List.mem_cons.mp hw with rfl | hw'
      · exact ⟨op, bytes, List.mem_cons_self, hlen, rfl⟩
      · obtain ⟨op', bytes', hmem, hword⟩ := exists_operator_of_mem_words hrest hw'
        exact ⟨op', bytes', List.mem_cons_of_mem _ (hsuffix.subset hmem), hword⟩
termination_by ts.length

/-- Operand bytes that fill the shape leave 0 in the word's unused slots. -/
theorem clearUnused_operands {op : Opcode} {bytes : List Byte}
    (hlen : bytes.length = ((asmShape op).map operandWidth).sum) :
    clearUnused (shape op) [bytes.getD 0 0, bytes.getD 1 0, bytes.getD 2 0] =
      [bytes.getD 0 0, bytes.getD 1 0, bytes.getD 2 0] := by
  cases op with
  | load | add | sub | mul | div => rfl
  | halt | illegal =>
    obtain rfl := List.length_eq_zero_iff.mp hlen
    rfl
  | jmp | jmpf | jmpb | jeq | alloc =>
    obtain ⟨x, rfl⟩ := List.length_eq_one_iff.mp hlen
    rfl
  | eq | neq | gt | lt | gteq | lteq =>
    obtain ⟨x, y, rfl⟩ := List.length_eq_two.mp hlen
    rfl

/-- An emitted word is the encoding of a well-formed instruction. -/
theorem emitWord_bytes_eq_encode {op : Opcode} {bytes : List Byte}
    (hlen : bytes.length = ((asmShape op).map operandWidth).sum) :
    ∃ i, wellFormed i = true ∧ (emitWord op bytes).bytes = encode i := by
  obtain ⟨hwf, hbyte⟩ := formInstr_byteToOpcode (opcodeToByte op) (bytes.getD 0 0) (bytes.getD 1 0)
    (bytes.getD 2 0) opcodeCode
  rw [byteToOpcode_opcodeToByte] at hwf hbyte
  refine ⟨_, hwf, ?_⟩
  rw [encode, hbyte, operandBytes_formInstr, clearUnused_operands hlen]
  rfl

/-! ### The immediate's bytes as numbers (R118) -/

theorem immHighByte_eq_ofNat (v : Imm16) : immHighByte v = BitVec.ofNat 8 (v.toNat / 256) :=
  BitVec.eq_of_toNat_eq (by simp [immHighByte, Nat.shiftRight_eq_div_pow])

theorem immLowByte_eq_ofNat (v : Imm16) : immLowByte v = BitVec.ofNat 8 (v.toNat % 256) :=
  BitVec.eq_of_toNat_eq (by simp [immLowByte])

end Assembler

/-- Settles O56: each shape is `assemble_operator_append` or its case of registers alone. -/
theorem shapesAssemble : Obligations.ShapesAssemble := by
  intro x y z v ts
  refine ⟨assemble_operator_registers (xs := []) rfl ts, assemble_operator_registers (xs := []) rfl ts, ?_,
    fun p hp => ?_, fun p hp => ?_, fun p hp => ?_⟩
  · rw [← immHighByte_eq_ofNat, ← immLowByte_eq_ofNat]
    exact assemble_operator_append (op := .load) (pre := [.register x, .integer v])
      (.cons rfl (.cons rfl .nil)) ts
  all_goals simp only [List.mem_cons, List.not_mem_nil, or_false] at hp
  · rcases hp with rfl | rfl | rfl | rfl <;> exact assemble_operator_registers (xs := [x, y, z]) rfl ts
  · rcases hp with rfl | rfl | rfl | rfl <;> exact assemble_operator_registers (xs := [x]) rfl ts
  · rcases hp with rfl | rfl | rfl | rfl | rfl | rfl <;>
      exact assemble_operator_registers (xs := [x, y]) rfl ts

/-- Settles O57: a later fault passes through `assemble_operator_append`, and the fault at an operand position is
`assemble_operand_fault` at the token's kind. -/
theorem syntaxFaultReasons : Obligations.SyntaxFaultReasons := by
  simp only [Obligations.SyntaxFaultReasons, ← fits_iff]
  refine ⟨fun ts x => assemble_eq _ _, fun ts v => assemble_eq _ _, fun op pre ts f hpre hts => ?_,
    fun op before after k pre ts hshape hpre => ⟨?_, ?_, fun op' => ?_, ?_, ?_⟩⟩
  · rw [assemble_operator_append hpre, hts]
    rfl
  · simpa using assemble_operand_fault hshape hpre [] (takeOperand_eof k)
  · exact assemble_operand_fault hshape hpre (.eof :: ts) (takeOperand_eof k)
  · exact assemble_operand_fault hshape hpre (.operator op' :: ts) (takeOperand_operator k op')
  · rintro rfl v
    exact assemble_operand_fault hshape hpre (.integer v :: ts) rfl
  · rintro rfl x
    exact assemble_operand_fault hshape hpre (.register x :: ts) rfl

/-- Settles O58: the word is emitted for an operator (`exists_operator_of_mem_words`), so it is an encoding
(`emitWord_bytes_eq_encode`), which decodes by `decode_encode_append`. -/
theorem assembledWordsAreEncodings : Obligations.AssembledWordsAreEncodings := by
  intro ts ws hts w hw
  obtain ⟨op, bytes, -, hlen, rfl⟩ := exists_operator_of_mem_words hts hw
  obtain ⟨i, hwf, hbytes⟩ := emitWord_bytes_eq_encode hlen
  refine ⟨i, hwf, hbytes, ?_⟩
  rw [hbytes, ← List.append_nil (encode i)]
  exact decode_encode_append opcodeCode_injOn_defined hwf []

/-- Settles O59: a word with ALLOC's byte was emitted for an ALLOC token, and no pull of the lexer gives one
(`pullToken_ne_alloc`). -/
theorem noTextAssemblesToAlloc : Obligations.NoTextAssemblesToAlloc := by
  intro text ws hws w hw hbyte
  obtain ⟨op, bytes, hmem, -, rfl⟩ := exists_operator_of_mem_words hws hw
  have hop : op = .alloc := (byteToOpcode_opcodeToByte op).symm.trans (congrArg byteToOpcode hbyte)
  obtain ⟨ts, hlex, hpulled⟩ := lex_eq_pulled_append_eof text
  have hts : Token.operator .alloc ∈ ts := by simpa [hlex, hop] using hmem
  obtain ⟨-, text', htext'⟩ := hpulled _ hts
  exact pullToken_ne_alloc text' htext'.symm

/-- Settles O60: both texts through the pipeline. -/
theorem pipelineWorkedTexts : Obligations.PipelineWorkedTexts := by
  unfold Obligations.PipelineWorkedTexts
  decide

end Sys2Proof.Machine

/-! ## Proofs: the step, runs and the host's appends (40_dispatch.md) -/

namespace Sys2Proof

section Decoding

variable {code : Opcode → Byte}

/-! ### What decides whether bytes decode (R88) -/

/-- HALT and ILLEGAL are the opcodes that need no operand byte. -/
theorem fetchLength_eq_one_iff {op : Opcode} : fetchLength op = 1 ↔ op = .halt ∨ op = .illegal := by
  cases op <;> decide

/-- HALT and ILLEGAL decode from the opcode byte alone. -/
theorem decode_of_fetchLength_eq_one {b0 : Byte} {rest : List Byte}
    (hlen : fetchLength (byteToOpcode b0 code) = 1) :
    decode (b0 :: rest) code = .instr (formInstr (byteToOpcode b0 code) b0 0 0 0) := if_pos hlen

/-- Every other opcode is truncated without its three operand bytes. -/
theorem decode_of_length_lt {b0 : Byte} {rest : List Byte} (hhalt : byteToOpcode b0 code ≠ .halt)
    (hill : byteToOpcode b0 code ≠ .illegal) (hrest : rest.length < 3) :
    decode (b0 :: rest) code = .truncated b0 := by
  have hlen : ¬ fetchLength (byteToOpcode b0 code) = 1 := by simp [fetchLength_eq_one_iff, hhalt, hill]
  match rest, hrest with
  | [], _ | [_], _ | [_, _], _ => exact if_neg hlen

/-- No more than four bytes are looked at. -/
theorem decode_take_four (bytes : List Byte) : decode (bytes.take 4) code = decode bytes code := by
  match bytes with
  | [] | [_] | [_, _] | [_, _, _] | _ :: _ :: _ :: _ :: _ => rfl

/-- The register bytes of a word are the bytes whose slot the shape marks, in slot order (R85). -/
theorem registerBytes_eq_map_filter (kinds : List SlotKind) (bytes : List Byte) :
    registerBytes kinds bytes = ((kinds.zip bytes).filter fun p => p.1 == .reg).map Prod.snd := by
  induction kinds generalizing bytes with
  | nil => rfl
  | cons k ks ih =>
    cases bytes with
    | nil => cases k <;> rfl
    | cons b bs => cases k <;> simp [registerBytes, ih]

/-- R146's first bad register, as the search over all slots gives it. -/
theorem firstBadRegister_eq_map_find? (i : Instr) :
    firstBadRegister i = (((shape (opcodeOf i)).zip (operandBytes i)).find?
      fun p => p.1 == .reg && decide (nregs ≤ p.2.toNat)).map Prod.snd := by
  unfold firstBadRegister regOperands
  rw [registerBytes_eq_map_filter, List.find?_map, List.find?_filter]
  simp only [Function.comp_apply, Bool.decide_and, Bool.decide_eq_true]

end Decoding

end Sys2Proof

namespace Sys2Proof.Machine

section Stepping

variable {pcBits : Nat} {P : Params} {s t : State pcBits}

/-! ### STATUS (R34, R35) -/

theorem stopped_eq_true_iff : s.stopped = true ↔ s.status.extractLsb' 0 4 ≠ (0 : BitVec 4) := bne_iff_ne

theorem stopped_eq_false_iff : s.stopped = false ↔ s.status.extractLsb' 0 4 = (0 : BitVec 4) :=
  bne_eq_false_iff_eq

/-- A stop's STATUS is the detail byte in front of a byte that holds the cause's code. -/
theorem stopState_eq (c : Cause) (b : Byte) (s : State pcBits) :
    stopState c b s = { s with status := b ++ ((0 : BitVec 4) ++ c.code : Byte) } :=
  congrArg (fun st : Status => { s with status := st }) BitVec.append_assoc

/-! ### The step in each situation of R140 -/

theorem active_eq_true_iff : s.active = true ↔ s.stopped = false ∧ s.atEnd = false := by
  simp [State.active]

theorem active_eq_false_iff : s.active = false ↔ s.stopped = true ∨ s.atEnd = true := by
  cases hrun : s.stopped <;> simp [State.active, hrun]

/-- R141, R142: a block that is stopped or at the end stays as it is. -/
theorem stepWith_of_not_active (P : Params) (h : s.active = false) : stepWith P s = .next s := by
  obtain ⟨t, ht, ⟨-, rfl⟩ | ⟨-, -, rfl⟩ | ⟨hrun, hend, -⟩ | ⟨hrun, hend, -⟩⟩ := stepWith_cases P s
  · exact ht
  · exact ht
  all_goals simp [State.active, hrun, hend] at h

/-- A block with a program byte at `pc` is not at the end. -/
theorem atEnd_of_read {b : Byte} (h : s.prog.read s.pc.toNat = some b) : s.atEnd = false :=
  decide_eq_false (not_le.mpr (lt_of_read h))

/-- R145: a truncated fetch stops. -/
theorem stepWith_of_fetch_truncated {b0 : Byte} (hrun : s.stopped = false) (hend : s.atEnd = false)
    (hfetch : fetch P s = .truncated b0) : stepWith P s = .next (stopState .faultTruncated b0 s) := by
  rcases stepWith_active (P := P) hrun hend with ⟨b, hb, hstep⟩ | ⟨i, hi, -⟩
  · cases hb.symm.trans hfetch
    exact hstep
  · cases hi.symm.trans hfetch

/-- R147: a fetched instruction runs. -/
theorem stepWith_of_fetch_instr {i : Instr} (hrun : s.stopped = false) (hend : s.atEnd = false)
    (hfetch : fetch P s = .instr i) : stepWith P s = execWith P i s := by
  rcases stepWith_active (P := P) hrun hend with ⟨b, hb, -⟩ | ⟨j, hj, hstep⟩
  · cases hb.symm.trans hfetch
  · cases hj.symm.trans hfetch
    exact hstep

/-- Where the program bytes from `pc` on decode to an instruction, it is the one fetched: the first four of them
are the bytes fetched, or begin these. -/
theorem fetch_of_read {bytes : List Byte} {i : Instr}
    (hread : ∀ k (h : k < bytes.length), s.prog.read (s.pc.toNat + k) = some bytes[k])
    (hdec : decode bytes P.opcodeCode = .instr i) : fetch P s = .instr i := by
  have hprefix : bytes.take 4 <+: fetchBytes s := by
    rw [List.prefix_iff_getElem?]
    intro k hk
    rw [List.length_take] at hk
    rw [getElem?_fetchBytes s (by omega), hread k (by omega), List.getElem_take]
  obtain ⟨more, hmore⟩ := hprefix
  unfold fetch
  rw [← hmore]
  exact decode_append ((decode_take_four bytes).trans hdec)

/-- A running block runs the instruction that the program bytes from `pc` on decode to. -/
theorem stepWith_of_read {bytes : List Byte} {i : Instr} (hrun : s.stopped = false)
    (hread : ∀ k (h : k < bytes.length), s.prog.read (s.pc.toNat + k) = some bytes[k])
    (hdec : decode bytes P.opcodeCode = .instr i) : stepWith P s = execWith P i s := by
  match bytes, hdec with
  | b0 :: rest, hdec =>
    have hend : s.atEnd = false := atEnd_of_read (hread 0 (Nat.zero_lt_succ _))
    exact stepWith_of_fetch_instr hrun hend (fetch_of_read hread hdec)

/-- The same where the opcode byte is enough (R88). -/
theorem stepWith_of_read_opcode {b0 : Byte} (hrun : s.stopped = false)
    (hread : s.prog.read s.pc.toNat = some b0) (hlen : fetchLength (byteToOpcode b0 P.opcodeCode) = 1) :
    stepWith P s = execWith P (formInstr (byteToOpcode b0 P.opcodeCode) b0 0 0 0) s := by
  refine stepWith_of_read (bytes := [b0]) hrun (fun k hk => ?_) (decode_of_fetchLength_eq_one hlen)
  obtain rfl : k = 0 := Nat.lt_one_iff.mp hk
  exact hread

/-- A word that runs past the program's end is fetched as truncated. -/
theorem fetch_of_len_lt {b0 : Byte} (hread : s.prog.read s.pc.toNat = some b0)
    (hhalt : byteToOpcode b0 P.opcodeCode ≠ .halt) (hill : byteToOpcode b0 P.opcodeCode ≠ .illegal)
    (hlen : s.prog.len < s.pc.toNat + 4) : fetch P s = .truncated b0 := by
  have hhead : (fetchBytes s)[0]? = some b0 := (getElem?_fetchBytes s (by decide)).trans hread
  have hshort : (fetchBytes s).length < 4 := by
    rw [length_fetchBytes]
    omega
  unfold fetch
  match fetchBytes s, hhead, hshort with
  | b :: rest, hhead, hshort =>
    obtain rfl : b = b0 := Option.some.inj hhead
    exact decode_of_length_lt hhalt hill (Nat.lt_of_succ_lt_succ hshort)

/-! ### What a step returns (R148) -/

theorem stepResult_of_stopped (P : Params) (h : s.stopped = true) : stepResult s P = .stopped s.status := if_pos h

theorem stepResult_of_atEnd (P : Params) (hrun : s.stopped = false) (hend : s.atEnd = true) :
    stepResult s P = .completed := by
  simp [stepResult, hrun, hend]

theorem stepResult_of_stepWith (hrun : s.stopped = false) (hend : s.atEnd = false)
    (h : stepWith P s = .next t) :
    stepResult s P = if t.stopped then .stopped t.status else .continued := by
  simp [stepResult, hrun, hend, afterStep_eq_of_stepWith h]

/-! ### The register check (R146) -/

/-- The outcome `o` from `s` is the stop at the first of these register bytes that names no register, where there
is one. -/
def StopsAtFirstBad (bytes : List Byte) (s : State pcBits) (o : Outcome pcBits) : Prop :=
  ∀ b, bytes.find? (fun b => decide (nregs ≤ b.toNat)) = some b → o = .next (stopState .faultRegIndex b s)

theorem stopsAtFirstBad_nil {o : Outcome pcBits} : StopsAtFirstBad [] s o := nofun

/-- A register operand checks its byte before the bytes its continuation checks. -/
theorem stopsAtFirstBad_withReg {b : Byte} {bytes : List Byte} {k : Fin nregs → Outcome pcBits}
    (h : ∀ j, StopsAtFirstBad bytes s (k j)) : StopsAtFirstBad (b :: bytes) s (withReg b s k) := by
  intro bad hbad
  rcases Nat.lt_or_ge b.toNat nregs with hb | hb
  · rw [withReg_of_lt hb]
    rw [List.find?_cons_of_neg (by simpa using hb)] at hbad
    exact h _ bad hbad
  · rw [List.find?_cons_of_pos (by simpa using hb)] at hbad
    rw [withReg_of_ge hb, Option.some.inj hbad]

theorem binaryOp_stopsAtFirstBad (policy : OverflowPolicy) (f : Int → Int → Int) (l r d : Byte)
    (s : State pcBits) : StopsAtFirstBad [l, r, d] s (binaryOp policy f l r d s) :=
  stopsAtFirstBad_withReg fun _ => stopsAtFirstBad_withReg fun _ => stopsAtFirstBad_withReg fun _ =>
    stopsAtFirstBad_nil

theorem compareRegs_stopsAtFirstBad (rel : Word → Word → Bool) (l r : Byte) (s : State pcBits) :
    StopsAtFirstBad [l, r] s (compareRegs rel l r s) :=
  stopsAtFirstBad_withReg fun _ => stopsAtFirstBad_withReg fun _ => stopsAtFirstBad_nil

/-- Every instruction checks its register operands in slot order, over every value of the parameters. -/
theorem execWith_stopsAtFirstBad (P : Params) (i : Instr) (s : State pcBits) :
    StopsAtFirstBad (regOperands i) s (execWith P i s) := by
  cases i with
  | hlt | illegal => exact stopsAtFirstBad_nil
  | load r | jmp r | jmpf r | jmpb r | jeq r | alloc r =>
    simp only [execWith, execLoad, execJmp, execJmpf, execJmpb, jeqWith, allocWith]
    exact stopsAtFirstBad_withReg fun _ => stopsAtFirstBad_nil
  | eq | neq | gt | lt | gteq | lteq => exact compareRegs_stopsAtFirstBad _ _ _ s
  | add | sub | mul => exact binaryOp_stopsAtFirstBad _ _ _ _ _ s
  | div l r d =>
    unfold execWith divWith
    exact stopsAtFirstBad_withReg fun _ => stopsAtFirstBad_withReg fun _ => stopsAtFirstBad_withReg fun _ =>
      stopsAtFirstBad_nil

/-! ### Runs (R152, R153) -/

theorem active_of_read {b : Byte} (hrun : s.stopped = false) (h : s.prog.read s.pc.toNat = some b) :
    s.active = true := active_eq_true_iff.mpr ⟨hrun, atEnd_of_read h⟩

/-- `run` ends where it is not active, and returns what the step there returns. -/
theorem runEnds_iff {r : StepResult} :
    RunEnds s t r P ↔ RunsTo s t P ∧ t.active = false ∧ r = stepResult t P := by
  refine and_congr_right fun _ => ?_
  cases hrun : t.stopped <;> cases hend : t.atEnd <;> simp [State.active, stepResult, hrun, hend]

theorem runFuel_zero_of_active (h : s.active = true) : runFuel 0 s P = .outOfFuel s := by
  obtain ⟨hrun, hend⟩ := active_eq_true_iff.mp h
  simp [runFuel, hrun, hend]

theorem runFuel_succ_of_active (fuel : Nat) (h : s.active = true) :
    runFuel (fuel + 1) s P = runFuel fuel (afterStep s P) P := by
  obtain ⟨hrun, hend⟩ := active_eq_true_iff.mp h
  simp [runFuel, hrun, hend]

/-- Where `run` does not go on, the executor reports the end at once, whatever the fuel. -/
theorem runFuel_of_not_active (fuel : Nat) (h : s.active = false) :
    runFuel fuel s P = .ended s (stepResult s P) := by
  unfold runFuel
  cases hrun : s.stopped with
  | true => simp [stepResult, hrun]
  | false =>
    have hend : s.atEnd = true := by simpa [hrun] using active_eq_false_iff.mp h
    simp [stepResult, hrun, hend]

/-- A run that ends is reported with enough fuel. -/
theorem RunEnds.exists_fuel {r : StepResult} (h : RunEnds s t r P) : ∃ fuel, runFuel fuel s P = .ended t r := by
  obtain ⟨hruns, hend, rfl⟩ := runEnds_iff.mp h
  clear h
  induction hruns using Relation.ReflTransGen.head_induction_on with
  | refl => exact ⟨0, runFuel_of_not_active 0 hend⟩
  | head hstep _ ih =>
    obtain ⟨hactive, hnext⟩ := hstep
    obtain ⟨fuel, hfuel⟩ := ih
    exact ⟨fuel + 1, by rw [runFuel_succ_of_active fuel hactive, afterStep_eq_of_stepWith hnext, hfuel]⟩

/-- What the executor reports as an end is one. -/
theorem runEnds_of_runFuel {fuel : Nat} {r : StepResult} (h : runFuel fuel s P = .ended t r) :
    RunEnds s t r P := by
  induction fuel generalizing s with
  | zero =>
    cases hactive : s.active with
    | false =>
      cases (runFuel_of_not_active 0 hactive).symm.trans h
      exact runEnds_iff.mpr ⟨.refl, hactive, rfl⟩
    | true => cases (runFuel_zero_of_active hactive).symm.trans h
  | succ fuel ih =>
    cases hactive : s.active with
    | false =>
      cases (runFuel_of_not_active (fuel + 1) hactive).symm.trans h
      exact runEnds_iff.mpr ⟨.refl, hactive, rfl⟩
    | true =>
      obtain ⟨hruns, hends⟩ := ih ((runFuel_succ_of_active fuel hactive).symm.trans h)
      exact ⟨.head ⟨hactive, stepWith_next P s⟩ hruns, hends⟩

/-- A hang has no end (R153). -/
theorem Hangs.not_runEnds (h : Hangs s P) : ¬ ∃ t r, RunEnds s t r P := by
  rintro ⟨t, r, hends⟩
  obtain ⟨fuel, hfuel⟩ := hends.exists_fuel
  obtain ⟨u, hu⟩ := h fuel
  cases hfuel.symm.trans hu

/-- An active state that steps to itself is a hang. -/
theorem hangs_of_stepWith_self (hactive : s.active = true) (hstep : stepWith P s = .next s) : Hangs s P := by
  intro fuel
  refine ⟨s, ?_⟩
  induction fuel with
  | zero => exact runFuel_zero_of_active hactive
  | succ fuel ih => rw [runFuel_succ_of_active fuel hactive, afterStep_eq_of_stepWith hstep, ih]

/-- R201: a JMP whose register holds a target goes there. -/
theorem execJmp_of_reg {r : Byte} (hr : r.toNat < nregs) :
    execJmp r s = .next (setPc (jumpValue s.regs[r.toNat]) s) := withReg_of_lt hr

/-! ### Appended bytes (R162, R163, R167) -/

theorem read_appendList_of_lt {m : Memory} (h : m.wf = true) (bs : List Byte) {a : Nat} (ha : a < m.len) :
    (m.appendList bs).read a = m.read a := by rw [read_appendList h, if_pos ha]

theorem read_appendList_add {m : Memory} (h : m.wf = true) (bs : List Byte) (k : Nat) :
    (m.appendList bs).read (m.len + k) = bs[k]? := by
  rw [read_appendList h, if_neg (by omega), Nat.add_sub_cancel_left]

theorem appendByte_of_lt (b : Byte) (h : s.prog.len < P.progMax) :
    appendByte b s P = some (withProg (s.prog.appendList [b]) s) := if_pos h

theorem appendByte_of_ge (b : Byte) (h : P.progMax ≤ s.prog.len) : appendByte b s P = none :=
  if_neg (not_lt.mpr h)

theorem appendWord_of_le (w : InstrWord) (h : s.prog.len + 4 ≤ P.progMax) :
    appendWord w s P = some (withProg (s.prog.appendList w.bytes) s) := if_pos h

theorem appendWord_of_gt (w : InstrWord) (h : P.progMax < s.prog.len + 4) : appendWord w s P = none :=
  if_neg (not_le.mpr h)

/-- A word that was appended stands at the old end of the program. -/
theorem eq_withProg_of_appendWord {w : InstrWord} (h : appendWord w s P = some t) :
    t = withProg (s.prog.appendList w.bytes) s := by
  unfold appendWord at h
  split at h
  · exact (Option.some.inj h).symm
  · cases h

theorem assembleAndAppend_of_fault {text : List Char} {f : SyntaxFault}
    (h : assembleText text P.opcodeCode = .fault f) : assembleAndAppend text s P = (s, .syntaxFault f) := by
  unfold assembleAndAppend
  rw [h]

theorem assembleAndAppend_of_words {text : List Char} {ws : List InstrWord}
    (h : assembleText text P.opcodeCode = .words ws) :
    assembleAndAppend text s P =
      if s.prog.len + 4 * ws.length ≤ P.progMax then (appendWords ws s, .done) else (s, .refused) := by
  unfold assembleAndAppend
  rw [h]

/-- Byte `j` of word `k` stands at `4 * k + j` among the bytes of the words (R80). -/
theorem getElem?_flatMap_bytes {ws : List InstrWord} {k j : Nat} {w : InstrWord} {b : Byte}
    (hw : ws[k]? = some w) (hb : w.bytes[j]? = some b) :
    (ws.flatMap InstrWord.bytes)[4 * k + j]? = some b := by
  induction ws generalizing k with
  | nil => cases hw
  | cons v ws ih =>
    rw [List.flatMap_cons]
    cases k with
    | zero =>
      obtain rfl : v = w := Option.some.inj hw
      obtain ⟨hj, -⟩ := List.getElem?_eq_some_iff.mp hb
      rw [Nat.mul_zero, Nat.zero_add, List.getElem?_append_left hj, hb]
    | succ k =>
      have hlen : v.bytes.length = 4 := rfl
      rw [List.getElem?_append_right (by omega), hlen, show 4 * (k + 1) + j - 4 = 4 * k + j by omega]
      exact ih hw

end Stepping

/-! ### The obligations -/

/-- Settles O11: the slot found holds the first bad register byte, at which every instruction stops
(`execWith_stopsAtFirstBad`). -/
theorem firstBadRegisterStops : Obligations.FirstBadRegisterStops := by
  intro i s b hfind
  have hbad : firstBadRegister i = some b := by
    rw [firstBadRegister_eq_map_find?]
    exact congrArg (Option.map Prod.snd) hfind
  have hstop := execWith_stopsAtFirstBad params i s b hbad
  rw [execWith_params, stopState_eq] at hstop
  exact hstop

/-- Settles O12, by the three situations of R140: stopped, at the end, and active. -/
theorem stepResultsTellTheStep : Obligations.StepResultsTellTheStep := by
  intro s t h
  replace h : stepWith params s = .next t := (stepWith_params s).trans h
  cases hrun : s.stopped with
  | true =>
    have hidle : s.active = false := active_eq_false_iff.mpr (.inl hrun)
    obtain rfl : s = t := Host.Outcome.next.inj ((stepWith_of_not_active params hidle).symm.trans h)
    simp [stepResult_of_stopped params hrun, hrun, eq_comm]
  | false =>
    cases hend : s.atEnd with
    | true =>
      have hidle : s.active = false := active_eq_false_iff.mpr (.inr hend)
      obtain rfl : s = t := Host.Outcome.next.inj ((stepWith_of_not_active params hidle).symm.trans h)
      have hpc := (atEnd_iff s).mp hend
      simp [stepResult_of_atEnd params hrun hend, hrun, hpc]
    | false =>
      have hpc : s.pc.toNat < s.prog.len := by simpa [State.atEnd] using hend
      rw [stepResult_of_stepWith hrun hend h]
      cases t.stopped <;> simp [hpc, eq_comm]

/-- Settles O47: `RunEnds.exists_fuel` is by induction on the run, `runEnds_of_runFuel` by induction on the fuel. -/
theorem runMatchesTheExecutor : Obligations.RunMatchesTheExecutor :=
  fun _ _ _ => ⟨RunEnds.exists_fuel, fun ⟨_, h⟩ => runEnds_of_runFuel h⟩

/-- Settles O27: the JMP steps to the state it is in, so the run hangs and has no end. -/
theorem jumpToItselfHangs : Obligations.JumpToItselfHangs := by
  intro s r b2 b3 hr hrun h0 h1 h2 h3 htarget
  have hread : ∀ k (h : k < [0x06, r, b2, b3].length),
      s.prog.read (s.pc.toNat + k) = some [0x06, r, b2, b3][k]
    | 0, _ => h0
    | 1, _ => h1
    | 2, _ => h2
    | 3, _ => h3
  have hstep : stepWith params s = .next s := by
    rw [stepWith_of_read hrun hread (decode_word 0x06 r b2 b3 [] opcodeCode)]
    refine (execJmp_of_reg hr).trans ?_
    rw [htarget, jumpValue_eq]
    rfl
  have hhangs : Hangs s := hangs_of_stepWith_self (active_of_read hrun h0) hstep
  exact ⟨hhangs, hhangs.not_runEnds⟩

/-- Settles O48, by what is read after an append of bytes. -/
theorem appendsExtendProgram : Obligations.AppendsExtendProgram := by
  intro s hwf
  have hnew := read_appendList_add hwf
  refine ⟨fun b => ⟨fun hfits => ⟨_, appendByte_of_lt b hfits, rfl, rfl, hnew [b] 0, fun a ha => ?_⟩,
      fun hmax => appendByte_of_ge b hmax⟩,
    fun w => ⟨fun hfits => ⟨_, appendWord_of_le w hfits, rfl, rfl, hnew w.bytes 0, hnew w.bytes 1,
      hnew w.bytes 2, hnew w.bytes 3, fun a ha => ?_⟩,
      fun hmax => appendWord_of_gt w hmax⟩⟩
  · exact read_appendList_of_lt hwf _ ha
  · exact read_appendList_of_lt hwf _ ha

/-- Settles O49: the words that fit are appended as the list of their bytes, in which `getElem?_flatMap_bytes` finds
each one. -/
theorem assembleAndAppendIsAllOrNothing : Obligations.AssembleAndAppendIsAllOrNothing := by
  intro text s hwf
  refine ⟨fun f hf => assembleAndAppend_of_fault hf, fun ws hws =>
    ⟨fun hmax => ?_, fun hfits => ⟨appendWords ws s, ?_, rfl, ?_, fun a ha => ?_, fun k w hw j b hb => ?_⟩⟩⟩
  · exact (assembleAndAppend_of_words hws).trans (if_neg (not_le.mpr hmax))
  · exact (assembleAndAppend_of_words hws).trans (if_pos hfits)
  · rw [appendWords_prog, appendList_len, length_flatMap_bytes]
  · exact read_appendList_of_lt hwf _ ha
  · rw [appendWords_prog, Nat.add_assoc, read_appendList_add hwf]
    exact getElem?_flatMap_bytes hw hb

/-- Settles O7, by `stepWith_of_read`. -/
theorem stepRunsTheDecodedInstruction : Obligations.StepRunsTheDecodedInstruction := by
  intro s bytes i hrun hread hdec
  rw [← stepWith_params, ← execWith_params]
  exact stepWith_of_read hrun hread hdec

/-- Settles O50: the program bytes from the old end on are the word's, so O7 applies. -/
theorem appendedWordRunsNext : Obligations.AppendedWordRunsNext := by
  intro w i s t hwf hrun hpc hdec happend
  obtain rfl := eq_withProg_of_appendWord happend
  refine stepRunsTheDecodedInstruction _ w.bytes i hrun (fun k hk => ?_) hdec
  rw [withProg_prog, withProg_pc, hpc, read_appendList_add hwf, List.getElem?_eq_getElem hk]

/-- Settles O8: a stopped block is not active (`stepWith_of_not_active`). -/
theorem stoppedBlockStaysStopped : Obligations.StoppedBlockStaysStopped := by
  intro s hcause
  have hstop : s.stopped = true := stopped_eq_true_iff.mpr hcause
  have hidle : s.active = false := active_eq_false_iff.mpr (.inl hstop)
  exact ⟨(stepWith_params s).symm.trans (stepWith_of_not_active params hidle),
    stepResult_of_stopped params hstop⟩

/-- Settles O9: a block at the end is not active (`stepWith_of_not_active`). -/
theorem completionChangesNothing : Obligations.CompletionChangesNothing := by
  intro s hcause hpc
  have hrun : s.stopped = false := stopped_eq_false_iff.mpr hcause
  have hend : s.atEnd = true := (atEnd_iff s).mpr hpc
  have hidle : s.active = false := active_eq_false_iff.mpr (.inr hend)
  exact ⟨(stepWith_params s).symm.trans (stepWith_of_not_active params hidle),
    stepResult_of_atEnd params hrun hend⟩

/-- Settles O10: the fetch is truncated (`fetch_of_len_lt`). -/
theorem truncatedWordStops : Obligations.TruncatedWordStops := by
  intro s b0 hrun hread hhalt hill hlen
  have hfetch : fetch params s = .truncated b0 := fetch_of_len_lt hread hhalt hill hlen
  rw [← stepWith_params, stepWith_of_fetch_truncated hrun (atEnd_of_read hread) hfetch, stopState_eq]
  rfl

/-- Settles O13: one byte is enough for HALT (`stepWith_of_read_opcode`). -/
theorem haltStops : Obligations.HaltStops := by
  refine ⟨fun s => rfl, fun s hrun hread => ?_⟩
  rw [← stepWith_params]
  exact stepWith_of_read_opcode hrun hread rfl

/-- Settles O14: a byte of 0x11 or more is ILLEGAL's, and is enough (`stepWith_of_read_opcode`). -/
theorem illegalStops : Obligations.IllegalStops := by
  have hexec (b0 : Byte) (s : State) :
      exec (.illegal b0) s = .next { s with status := b0 ++ (0x02 : Byte) } :=
    congrArg Host.Outcome.next (stopState_eq .illegalOpcode b0 s)
  refine ⟨hexec, fun b0 s hrun hread hb => ?_⟩
  have hill : byteToOpcode b0 params.opcodeCode = .illegal := (opcodeBytesAreTotal b0).2 hb
  have hstep := stepWith_of_read_opcode hrun hread (fetchLength_eq_one_iff.mpr (.inr hill))
  rw [hill, stepWith_params, execWith_params] at hstep
  exact hstep.trans (hexec b0 s)

end Sys2Proof.Machine

/-! ## Proofs: LOAD (41_load.md) -/

namespace Sys2Proof.Machine

/-- R83: sign extension keeps the immediate's signed value. -/
theorem sext32_eq_ofInt (v : Imm16) : sext32 v = BitVec.ofInt 32 v.toInt := rfl

/-- R170: a LOAD whose destination byte names a register writes it and goes on to the next word. -/
theorem execLoad_of_reg {pcBits : Nat} {d : Byte} {imm : Imm16} {s : State pcBits} (hd : d.toNat < nregs) :
    execLoad d imm s = .next (advance (writeDest ⟨d.toNat, hd⟩ (sext32 imm) s)) := withReg_of_lt hd

/-- Settles O16: the word's first byte is LOAD's opcode (`decode_word`), and the meaning is `execLoad_of_reg`. -/
theorem loadWritesSignExtendedImmediate : Obligations.LoadWritesSignExtendedImmediate := by
  intro d b2 b3 s hd
  have hop : byteToOpcode 0x01 = .load := byteToOpcode_opcodeToByte .load
  have hdec := decode_word 0x01 d b2 b3 [] opcodeCode
  rw [hop] at hdec
  refine ⟨hdec, ?_⟩
  calc exec (.load d (b2 ++ b3)) s
      = .next (advance (writeDest ⟨d.toNat, hd⟩ (sext32 (b2 ++ b3)) s)) := execLoad_of_reg hd
    _ = _ := by rw [sext32_eq_ofInt]; rfl

end Sys2Proof.Machine

/-! ## Proofs: arithmetic (42_arithmetic.md) -/

namespace Sys2Proof.Machine

section Arithmetic

/-! ### Results as register patterns (R180) -/

theorem wrap32_add (a c : Word) : wrap32 (s32 a + s32 c) = a + c := by
  rw [wrap32, BitVec.ofInt_add, BitVec.ofInt_toInt, BitVec.ofInt_toInt]

theorem wrap32_sub (a c : Word) : wrap32 (s32 a - s32 c) = a - c :=
  BitVec.eq_of_toInt_eq (by rw [wrap32, BitVec.toInt_ofInt, BitVec.toInt_sub])

theorem wrap32_mul (a c : Word) : wrap32 (s32 a * s32 c) = a * c := by
  rw [wrap32, BitVec.ofInt_mul, BitVec.ofInt_toInt, BitVec.ofInt_toInt]

/-! ### The quotient and the remainder (R185) -/

/-- R185: at the spec's parameters both cases of the remainder are that of truncated division. -/
theorem remainder_params (a c : Int) : remainder params a c = a.tmod c := by
  rw [Int.tmod_def, Int.mul_comm]
  exact ite_self (a - quotient a c * c)

/-- A remainder is smaller in magnitude than its divisor. -/
theorem abs_tmod_lt (a : Int) {c : Int} (hc : c ≠ 0) : |a.tmod c| < |c| := by
  have hlt : (a.tmod c).natAbs < c.natAbs := by
    rw [Int.natAbs_tmod]
    exact Nat.mod_lt _ (Int.natAbs_pos.mpr hc)
  rw [Int.abs_eq_natAbs, Int.abs_eq_natAbs]
  exact Int.ofNat_lt.mpr hlt

/-- A remainder other than 0 has the dividend's sign. -/
theorem tmod_eq_zero_or_neg_iff (a c : Int) : a.tmod c = 0 ∨ (a.tmod c < 0 ↔ a < 0) := by
  by_cases hdvd : c ∣ a
  · exact .inl (Int.tmod_eq_zero_of_dvd hdvd)
  · have hsign : (a.tmod c).sign = a.sign := by rw [Int.sign_tmod, if_neg hdvd]
    exact .inr (by rw [← Int.sign_eq_neg_one_iff_neg, hsign, Int.sign_eq_neg_one_iff_neg])

/-- R184: -2^31 / -1 is the one division whose quotient is not a signed 32-bit value; every other quotient is
that of the patterns' signed division. -/
theorem quotient_range {a c : Word} (h : ¬ (s32 a = -2 ^ 31 ∧ s32 c = -1)) :
    -2 ^ 31 ≤ quotient (s32 a) (s32 c) ∧ quotient (s32 a) (s32 c) < 2 ^ 31 := by
  have hne : a ≠ BitVec.intMin 32 ∨ c ≠ -1#32 := by
    contrapose! h
    obtain ⟨rfl, rfl⟩ := h
    decide
  have hq : (a.sdiv c).toInt = quotient (s32 a) (s32 c) := BitVec.toInt_sdiv_of_ne_or_ne a c hne
  rw [← hq]
  exact ⟨BitVec.le_toInt _, BitVec.toInt_lt⟩

/-! ### The meanings on three operand bytes that name registers -/

variable {pcBits : Nat} {l r d : Byte} {s : State pcBits}

/-- R146: three register operands that pass the check, in front of a continuation. -/
theorem withReg_three_of_lt {k : Fin nregs → Fin nregs → Fin nregs → Outcome pcBits}
    (hl : l.toNat < nregs) (hr : r.toNat < nregs) (hd : d.toNat < nregs) :
    (withReg l s fun i => withReg r s fun j => withReg d s fun m => k i j m) =
      k ⟨l.toNat, hl⟩ ⟨r.toNat, hr⟩ ⟨d.toNat, hd⟩ := by
  rw [withReg_of_lt hl, withReg_of_lt hr, withReg_of_lt hd]

/-- R180: under the wrap policy ADD, SUB and MUL complete with the exact result reduced modulo 2^32. -/
theorem binaryOp_wrap_of_regs (f : Int → Int → Int)
    (hl : l.toNat < nregs) (hr : r.toNat < nregs) (hd : d.toNat < nregs) :
    binaryOp .wrap f l r d s = .next (advance (writeDest ⟨d.toNat, hd⟩
      (wrap32 (f (s32 s.regs[l.toNat]) (s32 s.regs[r.toNat]))) s)) :=
  withReg_three_of_lt hl hr hd

/-- R184: a zero divisor stops with the divisor's byte as detail. -/
theorem divWith_of_zero (P : Params) (hl : l.toNat < nregs) (hr : r.toNat < nregs) (hd : d.toNat < nregs)
    (hc : s32 s.regs[r.toNat] = 0) : divWith P l r d s = .next (stopState .faultDivZero r s) :=
  (withReg_three_of_lt hl hr hd).trans (if_pos hc)

/-- R184: -2^31 / -1 stops with the divisor's byte as detail. -/
theorem divWith_of_overflow (P : Params) (hl : l.toNat < nregs) (hr : r.toNat < nregs) (hd : d.toNat < nregs)
    (hc : s32 s.regs[r.toNat] ≠ 0) (hov : s32 s.regs[l.toNat] = -2 ^ 31 ∧ s32 s.regs[r.toNat] = -1) :
    divWith P l r d s = .next (stopState .faultDivOverflow r s) :=
  (withReg_three_of_lt hl hr hd).trans ((if_neg hc).trans (if_pos hov))

/-- R184, R185: every other division completes. -/
theorem divWith_of_regs (P : Params) (hl : l.toNat < nregs) (hr : r.toNat < nregs) (hd : d.toNat < nregs)
    (hc : s32 s.regs[r.toNat] ≠ 0) (hov : ¬ (s32 s.regs[l.toNat] = -2 ^ 31 ∧ s32 s.regs[r.toNat] = -1)) :
    divWith P l r d s = .next (advance (setRem (wrap32 (remainder P (s32 s.regs[l.toNat]) (s32 s.regs[r.toNat])))
      (writeDest ⟨d.toNat, hd⟩ (wrap32 (quotient (s32 s.regs[l.toNat]) (s32 s.regs[r.toNat]))) s))) :=
  (withReg_three_of_lt hl hr hd).trans ((if_neg hc).trans (if_neg hov))

end Arithmetic

/-! ### The obligations -/

/-- Settles O17: the meanings are `binaryOp_wrap_of_regs`, and the exact sum, difference and product of the
signed readings reduce to those of the patterns. -/
theorem arithmeticWraps : Obligations.ArithmeticWraps := by
  intro l r d s hl hr hd a c write
  have hop (f : Int → Int → Int) : binaryOp .wrap f l r d s = .next (write (wrap32 (f (s32 a) (s32 c)))) :=
    binaryOp_wrap_of_regs f hl hr hd
  refine ⟨?_, ?_, ?_⟩
  · rw [← wrap32_add]
    exact hop (· + ·)
  · rw [← wrap32_sub]
    exact hop (· - ·)
  · rw [← wrap32_mul]
    exact hop (· * ·)

/-- Settles O19, by the quotient and the remainder of truncated division, which DIV writes (`divWith_of_regs`). -/
theorem divFollowsTheDivisionLaw : Obligations.DivFollowsTheDivisionLaw := by
  intro l r d s hl hr hd a c hc hov
  obtain ⟨hmin, hmax⟩ := quotient_range hov
  have hlaw : a = quotient a c * c + a.tmod c := (Int.tdiv_mul_add_tmod a c).symm
  have hexec := divWith_of_regs params hl hr hd hc hov
  rw [remainder_params] at hexec
  exact ⟨quotient a c, a.tmod c, hlaw, abs_tmod_lt a hc, tmod_eq_zero_or_neg_iff a c, hmin,
    Int.le_sub_one_of_lt hmax, hexec⟩

/-- Settles O20: the patterns read as the two divisions that stop (`divWith_of_zero`, `divWith_of_overflow`). -/
theorem divStops : Obligations.DivStops := by
  intro l r d s hl hr hd
  refine ⟨fun hc => ?_, fun ⟨ha, hc⟩ => ?_⟩
  · have hzero : s32 s.regs[r.toNat] = 0 := by rw [hc]; rfl
    have hstop := divWith_of_zero params hl hr hd hzero
    rw [stopState_eq] at hstop
    exact hstop
  · have hmin : s32 s.regs[l.toNat] = -2 ^ 31 := by rw [ha]; rfl
    have hone : s32 s.regs[r.toNat] = -1 := by rw [hc]; rfl
    have hstop := divWith_of_overflow params hl hr hd (by rw [hone]; decide) ⟨hmin, hone⟩
    rw [stopState_eq] at hstop
    exact hstop

end Sys2Proof.Machine


/-! ## Proofs: jumps (43_jump.md) -/

namespace Sys2Proof.Machine

section Jumps

/-! ### Numbers as patterns -/

theorem ofNat_mod_two_pow (n x : Nat) : BitVec.ofNat n (x % 2 ^ n) = BitVec.ofNat n x :=
  BitVec.eq_of_toNat_eq (by rw [BitVec.toNat_ofNat, BitVec.toNat_ofNat, Nat.mod_mod])

theorem ofInt_emod_two_pow (n : Nat) (z : Int) : BitVec.ofInt n (z % 2 ^ n) = BitVec.ofInt n z := by
  apply BitVec.eq_of_toNat_eq
  rw [BitVec.toNat_ofInt, BitVec.toNat_ofInt, Int.natCast_pow, Nat.cast_ofNat, Int.emod_emod]

theorem ofInt_sub (n : Nat) (x y : Int) : BitVec.ofInt n (x - y) = BitVec.ofInt n x - BitVec.ofInt n y := by
  rw [Int.sub_eq_add_neg, BitVec.ofInt_add, BitVec.ofInt_neg, BitVec.sub_eq_add_neg]

/-- R200: a negative number not below -2^31 wraps to at least 2^31. -/
theorem two_pow_le_toNat_ofInt {z : Int} (hmin : -2 ^ 31 ≤ z) (hneg : z < 0) :
    2 ^ 31 ≤ (BitVec.ofInt 32 z).toNat := by
  rw [BitVec.toNat_ofInt]
  omega

/-! ### Targets (R200) -/

variable {pcBits : Nat} {P : Params} {r : Byte} {s : State pcBits}

theorem jumpValue_eq_ofNat (v : Word) : (jumpValue v : Pc pcBits) = BitVec.ofNat pcBits v.toNat :=
  (BitVec.ofNat_toNat pcBits v).symm

theorem relativeBase_eq_ofNat (s : State pcBits) : relativeBase s = BitVec.ofNat pcBits (s.pc.toNat + 2) := by
  rw [BitVec.ofNat_add, BitVec.ofNat_toNat, BitVec.setWidth_eq]
  rfl

/-- At the spec's `PC_BITS` the signed reading of a register value is the same target. -/
theorem jumpValue_eq_ofInt (v : Word) : (jumpValue v : Pc) = BitVec.ofInt 32 v.toInt := by
  rw [jumpValue_eq, BitVec.ofInt_toInt]

theorem relativeBase_eq_ofInt (s : State pcBits) :
    relativeBase s = BitVec.ofInt pcBits ((s.pc.toNat : Int) + 2) := by
  rw [relativeBase_eq_ofNat, ← BitVec.ofInt_natCast, Int.natCast_add, Nat.cast_ofNat]

/-! ### The jumps on an operand byte that names a register -/

/-- R202: JMPF goes forward from the base. -/
theorem execJmpf_of_reg (hr : r.toNat < nregs) :
    execJmpf r s = .next (setPc (relativeBase s + jumpValue s.regs[r.toNat]) s) := withReg_of_lt hr

/-- R203: JMPB goes backward from the base. -/
theorem execJmpb_of_reg (hr : r.toNat < nregs) :
    execJmpb r s = .next (setPc (relativeBase s - jumpValue s.regs[r.toNat]) s) := withReg_of_lt hr

/-- R204: a JEQ jumps when FLAG is set. -/
theorem jeqWith_of_flag (P : Params) (hr : r.toNat < nregs) (hflag : s.flag = true) :
    jeqWith P r s = .next (setPc (jumpValue s.regs[r.toNat]) s) := (withReg_of_lt hr).trans (if_pos hflag)

/-- R204: a JEQ advances when FLAG is not set. -/
theorem jeqWith_of_not_flag (P : Params) (hr : r.toNat < nregs) (hflag : s.flag = false) :
    jeqWith P r s = .next (setPc (s.pc + BitVec.ofNat pcBits P.jeqNotTakenAdvance) s) :=
  (withReg_of_lt hr).trans (if_neg (by rw [hflag]; exact Bool.false_ne_true))

/-- R201: the target of JMP as a number. -/
theorem execJmp_eq_ofNat (hr : r.toNat < nregs) :
    execJmp r s = .next (setPc (BitVec.ofNat pcBits s.regs[r.toNat].toNat) s) := by
  rw [execJmp_of_reg hr, jumpValue_eq_ofNat]

/-- R202: the target of JMPF as a number modulo 2^PC_BITS. -/
theorem execJmpf_eq_ofNat (hr : r.toNat < nregs) :
    execJmpf r s =
      .next (setPc (BitVec.ofNat pcBits ((s.pc.toNat + 2 + s.regs[r.toNat].toNat) % 2 ^ pcBits)) s) := by
  rw [execJmpf_of_reg hr, ofNat_mod_two_pow, BitVec.ofNat_add, relativeBase_eq_ofNat, jumpValue_eq_ofNat]

/-- R203: the target of JMPB as a number modulo 2^PC_BITS. -/
theorem execJmpb_eq_ofInt (hr : r.toNat < nregs) :
    execJmpb r s =
      .next (setPc (BitVec.ofInt pcBits (((s.pc.toNat : Int) + 2 - s.regs[r.toNat].toNat) % 2 ^ pcBits)) s) := by
  rw [execJmpb_of_reg hr, ofInt_emod_two_pow, ofInt_sub, relativeBase_eq_ofInt, jumpValue_eq_ofNat,
    BitVec.ofInt_natCast]

/-- The effect of every jump is on `pc` alone. -/
theorem Effect.setPc_of_jump {i : Instr} {t : State pcBits} (hi : i ∈ [Instr.jmp r, .jmpf r, .jmpb r, .jeq r])
    (h : Effect i s t P) : ∃ p, t = setPc p s := by
  simp only [List.mem_cons, List.not_mem_nil, or_false] at hi
  rcases hi with rfl | rfl | rfl | rfl <;> exact h

/-- R200: in a state that meets the invariants, a target below offset 0, though not below -2^31, is at or beyond
`L` after wrapping, since `L ≤ PROG_MAX = 2^31`. -/
theorem Inv.len_le_of_negative_target {s : State} {z : Int} (hs : Inv s) (hmin : -2 ^ 31 ≤ z) (hneg : z < 0) :
    s.prog.len ≤ (BitVec.ofInt 32 z).toNat :=
  hs.progLen.trans (two_pow_le_toNat_ofInt hmin hneg)

end Jumps

/-! ### The obligations -/

/-- Settles O22: each jump's target as a number modulo 2^PC_BITS (`execJmp_eq_ofNat`, `execJmpf_eq_ofNat`,
`execJmpb_eq_ofInt`), the first part at the spec's `PC_BITS`. -/
theorem jumpsSetPc : Obligations.JumpsSetPc := by
  refine fun r hr => ⟨fun s => ⟨execJmp_eq_ofNat hr, execJmpf_eq_ofNat hr, execJmpb_eq_ofInt hr⟩,
    fun pcBits P s => ⟨?_, execJmpf_eq_ofNat hr, execJmpb_eq_ofInt hr⟩⟩
  rw [ofNat_mod_two_pow]
  exact execJmp_eq_ofNat hr

/-- Settles O24: a stop changes STATUS alone, and a jump that completes changes `pc` alone. -/
theorem frameOfJumps : Obligations.FrameOfJumps := by
  intro r i s t hi h
  rcases exec_next h with ⟨c, b, rfl⟩ | he
  · exact ⟨fun _ => rfl, rfl, rfl, rfl, fun _ => rfl, fun _ => rfl, fun _ => rfl⟩
  · obtain ⟨p, rfl⟩ := he.setPc_of_jump hi
    exact ⟨fun _ => rfl, rfl, rfl, rfl, fun _ => rfl, fun _ => rfl, fun hstatus => absurd rfl hstatus⟩

/-- Settles O25: each target is the pattern of a signed number that is at least -2^31, and negative by hypothesis
(`Inv.len_le_of_negative_target`). -/
theorem negativeTargetsComplete : Obligations.NegativeTargetsComplete := by
  intro r s hr hs _ x
  have hmin : -2 ^ 31 ≤ x := BitVec.le_toInt _
  have hmax : x < 2 ^ 31 := BitVec.toInt_lt
  refine ⟨fun hneg => ⟨_, execJmp_of_reg hr, ?_, rfl⟩, fun hneg => ⟨_, execJmpf_of_reg hr, ?_, rfl⟩,
    fun hneg => ⟨_, execJmpb_of_reg hr, ?_, rfl⟩⟩
  · rw [setPc_pc, jumpValue_eq_ofInt]
    exact hs.len_le_of_negative_target hmin hneg
  · rw [setPc_pc, relativeBase_eq_ofInt, jumpValue_eq_ofInt, ← BitVec.ofInt_add]
    exact hs.len_le_of_negative_target (by omega) hneg
  · rw [setPc_pc, relativeBase_eq_ofInt, jumpValue_eq_ofInt, ← ofInt_sub]
    exact hs.len_le_of_negative_target (by omega) hneg

/-- Settles O23, by `jeqWith_of_flag` and `jeqWith_of_not_flag`; at the spec's `PC_BITS` the target is the register
value itself. -/
theorem jeqFollowsFlag : Obligations.JeqFollowsFlag := by
  refine fun r hr => ⟨fun s => ⟨fun hflag => ?_, jeqWith_of_not_flag params hr⟩,
    fun pcBits P s => ⟨fun hflag => ?_, jeqWith_of_not_flag P hr⟩⟩
  · rw [← jumpValue_eq s.regs[r.toNat]]
    exact jeqWith_of_flag params hr hflag
  · rw [← jumpValue_eq_ofNat]
    exact jeqWith_of_flag P hr hflag

end Sys2Proof.Machine

/-! ## Proofs: comparisons (44_compare.md) -/

namespace Sys2Proof.Machine

section Comparisons

/-! ### Equality of patterns is equality of signed values (R221, R222) -/

theorem relEq_eq_decide (a c : Word) : relEq a c = decide (s32 a = s32 c) := by
  rw [relEq, beq_eq_decide]
  exact decide_eq_decide.mpr BitVec.toInt_inj.symm

theorem relNeq_eq_decide (a c : Word) : relNeq a c = decide (s32 a ≠ s32 c) := by
  rw [decide_not, ← relEq_eq_decide]
  rfl

/-! ### The comparisons on operand bytes that name registers, and their effect -/

variable {pcBits : Nat} {P : Params} {l r : Byte} {s t : State pcBits}

/-- R220: a comparison whose operand bytes name registers writes its relation to FLAG and goes on to the next
word. -/
theorem compareRegs_of_regs (rel : Word → Word → Bool) (hl : l.toNat < nregs) (hr : r.toNat < nregs) :
    compareRegs rel l r s = .next (advance (setFlag (rel s.regs[l.toNat] s.regs[r.toNat]) s)) := by
  rw [compareRegs, withReg_of_lt hl, withReg_of_lt hr]
  rfl

/-- The effect of every comparison is on FLAG and `pc` alone. -/
theorem Effect.setFlag_of_comparison {i : Instr}
    (hi : i ∈ [Instr.eq l r, .neq l r, .gt l r, .lt l r, .gteq l r, .lteq l r]) (h : Effect i s t P) :
    ∃ v, t = advance (setFlag v s) := by
  simp only [List.mem_cons, List.not_mem_nil, or_false] at hi
  rcases hi with rfl | rfl | rfl | rfl | rfl | rfl <;> exact h

end Comparisons

/-! ### The obligations -/

/-- Settles O28: each comparison is `compareRegs` at its relation; the four orders are the signed ones by
definition, EQ and NEQ compare patterns (`relEq_eq_decide`, `relNeq_eq_decide`). -/
theorem comparisonsSetFlag : Obligations.ComparisonsSetFlag := by
  intro l r s hl hr a c write
  have hcompare (rel : Word → Word → Bool) :
      compareRegs rel l r s = .next (write (rel s.regs[l.toNat] s.regs[r.toNat])) :=
    compareRegs_of_regs rel hl hr
  refine ⟨?eq, ?neq, hcompare relGt, hcompare relLt, hcompare relGteq, hcompare relLteq⟩
  case eq => exact (hcompare relEq).trans (by rw [relEq_eq_decide])
  case neq => exact (hcompare relNeq).trans (by rw [relNeq_eq_decide])

/-- Settles O29: a stop changes STATUS alone, and a comparison that completes changes FLAG and `pc` alone. -/
theorem frameOfComparisons : Obligations.FrameOfComparisons := by
  intro l r i s t hi h
  rcases exec_next h with ⟨c, b, rfl⟩ | he
  · exact ⟨fun _ => rfl, rfl, rfl, fun _ => rfl, fun _ => rfl, fun _ => ⟨rfl, rfl⟩⟩
  · obtain ⟨v, rfl⟩ := he.setFlag_of_comparison hi
    exact ⟨fun _ => rfl, rfl, rfl, fun _ => rfl, fun _ => rfl, fun hstatus => absurd rfl hstatus⟩

end Sys2Proof.Machine

/-! ## Proofs: ALLOC (45_alloc.md) -/

namespace Sys2Proof.Machine

section Alloc

variable {pcBits : Nat} {P : Params} {r : Byte} {s : State pcBits}

/-! ### The three outcomes on an operand byte that names a register (R240) -/

/-- R240: a negative count stops, whatever the heap. -/
theorem allocWith_of_neg (P : Params) (hr : r.toNat < nregs) (hneg : s32 s.regs[r.toNat] < 0) :
    allocWith P r s = .next (stopState .faultNegAlloc r s) :=
  (withReg_of_lt hr).trans (if_pos hneg)

/-- R59: a count that would grow the heap past `HEAP_MAX` stops. -/
theorem allocWith_of_past_limit (hr : r.toNat < nregs) (hnonneg : 0 ≤ s32 s.regs[r.toNat])
    (hpast : P.heapMax < s.heap.len + (s32 s.regs[r.toNat]).toNat) :
    allocWith P r s = .next (stopState .faultHeapLimit r s) :=
  (withReg_of_lt hr).trans ((if_neg hnonneg.not_gt).trans (if_pos hpast))

/-- R58: any other count grows the heap by that many zeros. -/
theorem allocWith_of_fits (hr : r.toNat < nregs) (hnonneg : 0 ≤ s32 s.regs[r.toNat])
    (hfits : s.heap.len + (s32 s.regs[r.toNat]).toNat ≤ P.heapMax) :
    allocWith P r s = .next (advance (heapGrow (s32 s.regs[r.toNat]).toNat s)) :=
  (withReg_of_lt hr).trans ((if_neg hnonneg.not_gt).trans (if_neg hfits.not_gt))

/-! ### A grown store, in each range of offsets (R57, R58) -/

theorem read_appendZeros_of_lt {m : Memory} (n : Nat) {a : Nat} (ha : a < m.len) :
    (m.appendZeros n).read a = m.read a := by
  rw [read_appendZeros, if_pos ha]

theorem read_appendZeros_of_new {m : Memory} {n a : Nat} (hle : m.len ≤ a) (hlt : a < m.len + n) :
    (m.appendZeros n).read a = some 0 := by
  rw [read_appendZeros, if_neg hle.not_gt, if_pos hlt]

/-- Outside the new offsets nothing changes: above them there is no byte, as there was none. -/
theorem read_appendZeros_of_not_new {m : Memory} {n a : Nat} (ha : ¬ (m.len ≤ a ∧ a < m.len + n)) :
    (m.appendZeros n).read a = m.read a := by
  rcases Nat.lt_or_ge a m.len with hold | habove
  · exact read_appendZeros_of_lt n hold
  · have hnone : m.read a = none := if_neg habove.not_gt
    rw [read_appendZeros, if_neg habove.not_gt, if_neg fun hlt => ha ⟨habove, hlt⟩, hnone]

end Alloc

/-! ### The obligations -/

/-- Settles O30: the count fits (`allocWith_of_fits`), and the grown heap reads as `read_appendZeros_of_lt` and
`read_appendZeros_of_new` say, in canonical form or not. -/
theorem allocGrowsByZeros : Obligations.AllocGrowsByZeros := by
  intro r s hr n hn hfits
  have hcount : (s32 s.regs[r.toNat]).toNat = n := by rw [s32, hn, Int.toNat_natCast]
  have hnonneg : 0 ≤ s32 s.regs[r.toNat] := by rw [s32, hn]; exact Int.natCast_nonneg n
  have hexec : exec (.alloc r) s = .next (advance (heapGrow n s)) := by
    rw [← hcount] at hfits ⊢
    exact allocWith_of_fits hr hnonneg hfits
  exact ⟨_, hexec, rfl, rfl, fun _ => read_appendZeros_of_lt n, fun _ => read_appendZeros_of_new⟩

/-- Settles O31: the two stops are `allocWith_of_neg` and `allocWith_of_past_limit`. -/
theorem allocStops : Obligations.AllocStops := by
  intro r s hr n
  refine ⟨fun hneg => ?_, fun hnonneg hpast => ?_⟩
  · have hstop := allocWith_of_neg params hr hneg
    rw [stopState_eq] at hstop
    exact hstop
  · have hlimit : 2147483647 < s.heap.len + n.toNat := by omega
    have hstop := allocWith_of_past_limit (P := params) hr hnonneg hlimit
    rw [stopState_eq] at hstop
    exact hstop

/-- Settles O32: a stop changes STATUS alone, and an ALLOC that completes changes `pc` and the heap alone, the heap
only in the new offsets (`read_appendZeros_of_not_new`). -/
theorem frameOfAlloc : Obligations.FrameOfAlloc := by
  intro r s t h
  rcases exec_next h with ⟨c, b, rfl⟩ | he
  · exact ⟨fun _ => rfl, rfl, rfl, rfl, fun _ => rfl, fun _ => rfl, fun _ _ => rfl⟩
  · obtain ⟨k, hk, -, -, rfl⟩ := he
    have hr : r.toNat < nregs := hk ▸ k.isLt
    obtain rfl : k = ⟨r.toNat, hr⟩ := Fin.ext hk
    exact ⟨fun _ => rfl, rfl, rfl, rfl, fun _ => rfl, fun hstatus => absurd rfl hstatus,
      fun _ hout => read_appendZeros_of_not_new (hout hr)⟩

end Sys2Proof.Machine

/-! ## Proofs: stops (60_exceptions.md) -/

namespace Sys2Proof.Machine

section Stops

variable {pcBits : Nat} {P : Params} {s t : State pcBits}

/-! ### Precise stops (R251) -/

/-- An instruction that completes leaves the block as it was, running or stopped: none of its changes writes STATUS. -/
theorem Change.stopped_eq {i : Instr} (h : Change P i s t) : t.stopped = s.stopped := by
  cases h <;> rfl

/-- R251: where a step stops a running block, it took a stop. -/
theorem isStop_of_stepWith (hrun : s.stopped = false) (h : stepWith P s = .next t) (hstop : t.stopped = true) :
    IsStop s t := by
  rcases stepWith_change h with rfl | hs | ⟨-, i, -, hchange⟩
  · simp [hrun] at hstop
  · exact hs
  · simp [hchange.stopped_eq, hrun] at hstop

/-! ### The instruction that a whole word at `pc` runs (R253) -/

/-- Of the bytes below 0x11 only 0x00 is HALT's, and none is ILLEGAL's. -/
theorem byteToOpcode_ne_halt_illegal {b0 : Byte} (hne : b0 ≠ 0x00) (hlt : b0.toNat < 0x11) :
    byteToOpcode b0 ≠ .halt ∧ byteToOpcode b0 ≠ .illegal := by
  obtain ⟨hill, hcode⟩ := (opcodeBytesAreTotal b0).1 (Nat.le_of_lt_succ hlt)
  refine ⟨fun hhalt => hne ?_, hill⟩
  rw [← hcode, hhalt]
  rfl

/-- A running block whose word lies in the program runs the instruction that the word's opcode forms. -/
theorem step_of_read_word {s : State} {b0 b1 b2 b3 : Byte} (hrun : s.stopped = false)
    (h0 : s.prog.read s.pc.toNat = some b0) (h1 : s.prog.read (s.pc.toNat + 1) = some b1)
    (h2 : s.prog.read (s.pc.toNat + 2) = some b2) (h3 : s.prog.read (s.pc.toNat + 3) = some b3) :
    step s = exec (formInstr (byteToOpcode b0) b0 b1 b2 b3) s := by
  have hread : ∀ k (h : k < [b0, b1, b2, b3].length),
      s.prog.read (s.pc.toNat + k) = some [b0, b1, b2, b3][k]
    | 0, _ => h0
    | 1, _ => h1
    | 2, _ => h2
    | 3, _ => h3
  exact stepRunsTheDecodedInstruction s _ _ hrun hread (decode_word b0 b1 b2 b3 [] opcodeCode)

theorem clearUnused_cons (k : SlotKind) (ks : List SlotKind) (b : Byte) (bs : List Byte) :
    clearUnused (k :: ks) (b :: bs) = (if k = .unused then 0 else b) :: clearUnused ks bs := rfl

/-- A search among the register slots does not see the bytes of unused slots, cleared or not. -/
theorem find?_reg_zip_clearUnused (q : Byte → Bool) (kinds : List SlotKind) (bytes : List Byte) :
    ((kinds.zip (clearUnused kinds bytes)).find? fun p => p.1 == .reg && q p.2) =
      (kinds.zip bytes).find? fun p => p.1 == .reg && q p.2 := by
  induction kinds generalizing bytes with
  | nil => rfl
  | cons k ks ih =>
    cases bytes with
    | nil => rfl
    | cons b bs =>
      rw [clearUnused_cons, List.zip_cons_cons, List.zip_cons_cons, List.find?_cons, List.find?_cons, ih]
      cases k <;> rfl

/-! ### Fail-stops (R264) -/

theorem isFailStop_eq_true_iff : isFailStop s.status = true ↔ s.cause ≠ 0 ∧ s.cause ≠ Cause.halted.code := by
  simp [isFailStop, State.cause]

theorem code_eq_halted_iff {c : Cause} : c.code = Cause.halted.code ↔ c = .halted := by
  cases c <;> decide

/-- The two normal ends: CAUSE is HALTED's at the one and RUNNING at the other. -/
theorem RunsNormally.cause (h : RunsNormally s t P) : t.cause = Cause.halted.code ∨ t.cause = 0 := by
  obtain ⟨r, ⟨-, ⟨-, rfl⟩ | ⟨hrun, -, -⟩⟩, hnormal⟩ := h
  · exact .inl (beq_iff_eq.mp hnormal)
  · exact .inr (stopped_eq_false_iff.mp hrun)

end Stops

/-! ### The obligations -/

/-- Settles O39: the step took a stop (`isStop_of_stepWith`), which writes STATUS alone. -/
theorem stopsArePrecise : Obligations.StopsArePrecise := by
  intro s t hrun h hstop
  obtain ⟨c, b, rfl⟩ := isStop_of_stepWith hrun ((stepWith_params s).trans h) hstop
  rfl

/-- Settles O40: HALT, ILLEGAL and truncation are O13, O14 and O10; past them the whole word runs
(`step_of_read_word`), and the instruction's own first cause is O11's, O20's or O31's. -/
theorem stopPriority : Obligations.StopPriority := by
  intro s b0 hrun h0
  refine ⟨?_, illegalStops.2 b0 s hrun h0, fun hne hlt hlen => ?_, fun b1 b2 b3 h1 h2 h3 => ?_⟩
  · rintro rfl
    exact haltStops.2 s hrun h0
  · obtain ⟨hhalt, hill⟩ := byteToOpcode_ne_halt_illegal hne hlt
    exact truncatedWordStops s b0 hrun h0 hhalt hill hlen
  · rw [step_of_read_word hrun h0 h1 h2 h3]
    refine ⟨fun b _ _ hfind => ?_, ?_, ?_⟩
    · refine firstBadRegisterStops _ s b ?_
      rw [opcodeOf_formInstr, operandBytes_formInstr]
      exact (find?_reg_zip_clearUnused (fun b => decide (32 ≤ b.toNat)) _ _).trans hfind
    · rintro rfl hl hr hd hzero
      exact (divStops b1 b2 b3 s hl hr hd).1 hzero
    · rintro rfl hr hneg
      exact (allocStops b1 s hr).1 hneg

/-- Settles O42: a normal end has one of the two causes that are no fail-stop (`RunsNormally.cause`), and no other
cause has their codes. -/
theorem normalEndsAreNoFailStops : Obligations.NormalEndsAreNoFailStops := by
  refine ⟨fun s t h => ?_, fun c b s hc => ?_⟩
  · rw [Bool.eq_false_iff, Ne, isFailStop_eq_true_iff]
    rintro ⟨hrunning, hhalted⟩
    exact h.cause.elim hhalted hrunning
  · rw [isFailStop_eq_true_iff, stopState_cause]
    exact ⟨code_ne_zero c, code_eq_halted_iff.not.mpr hc⟩

end Sys2Proof.Machine

/-! ## Proofs: the canonical form of a store (20_memory.md, log entry 4) -/

namespace Sys2Proof.Machine

section CanonicalForm

variable {hi lo : Nat} {cells : List Host.Cell}

/-- A canonical list's first cell is within the bounds and not the unlisted byte, and its rest is canonical after it. -/
theorem canonical_cons_iff {a : Nat} {v : Byte} :
    Memory.canonical hi lo ((a, v) :: cells) = true ↔
      lo ≤ a ∧ a < hi ∧ v ≠ Memory.unlisted ∧ Memory.canonical hi (a + 1) cells = true := by
  simp [Memory.canonical, and_assoc]

theorem lookup_cons_self (a : Nat) (v : Byte) : Memory.lookup ((a, v) :: cells) a = v := if_pos rfl

theorem lookup_cons_of_ne {a x : Nat} (v : Byte) (h : a ≠ x) :
    Memory.lookup ((a, v) :: cells) x = Memory.lookup cells x := if_neg h

/-- A canonical list lists nothing before its first cell. -/
theorem head_le_of_lookup_ne_unlisted {a b : Nat} {v : Byte} (h : Memory.canonical hi lo ((a, v) :: cells) = true)
    (hne : Memory.lookup ((a, v) :: cells) b ≠ Memory.unlisted) : a ≤ b := by
  by_contra hba
  obtain ⟨-, -, -, hrest⟩ := canonical_cons_iff.mp h
  rw [lookup_cons_of_ne v (by omega)] at hne
  exact hne (lookup_of_lt (by omega) hrest)

/-- Canonical lists that give the same byte at every offset are equal: their first cells stand at one offset, each
being the first the other lists, and the rests, which say nothing at it, again give the same everywhere. -/
theorem cells_eq_of_lookup_eq :
    ∀ {cells cells' : List Host.Cell} {lo : Nat}, Memory.canonical hi lo cells = true →
      Memory.canonical hi lo cells' = true → (∀ x, Memory.lookup cells x = Memory.lookup cells' x) → cells = cells'
  | [], [], _, _, _, _ => rfl
  | [], (b, w) :: _, _, _, h', heq => by
    obtain ⟨-, -, hw, -⟩ := canonical_cons_iff.mp h'
    exact absurd ((heq b).trans (lookup_cons_self b w)).symm hw
  | (a, v) :: _, [], _, h, _, heq => by
    obtain ⟨-, -, hv, -⟩ := canonical_cons_iff.mp h
    exact absurd ((lookup_cons_self a v).symm.trans (heq a)) hv
  | (a, v) :: rest, (b, w) :: rest', _, h, h', heq => by
    obtain ⟨-, -, hv, hrest⟩ := canonical_cons_iff.mp h
    obtain ⟨-, -, hw, hrest'⟩ := canonical_cons_iff.mp h'
    have hab : a ≤ b := head_le_of_lookup_ne_unlisted h (by rwa [heq, lookup_cons_self])
    have hba : b ≤ a := head_le_of_lookup_ne_unlisted h' (by rwa [← heq, lookup_cons_self])
    obtain rfl : a = b := le_antisymm hab hba
    have hvw : v = w := by simpa only [lookup_cons_self] using heq a
    have hrests : ∀ x, Memory.lookup rest x = Memory.lookup rest' x := by
      intro x
      by_cases hx : a = x
      · have hlt : x < a + 1 := by omega
        rw [lookup_of_lt hlt hrest, lookup_of_lt hlt hrest']
      · simpa only [lookup_cons_of_ne _ hx] using heq x
    rw [hvw, cells_eq_of_lookup_eq hrest hrest' hrests]

/-- Below the length the bytes read are the cells' own, and from it on a canonical list says nothing. -/
theorem lookup_eq_of_read_eq {m m' : Memory} (h : m.wf = true) (h' : m'.wf = true) (hlen : m.len = m'.len)
    (hread : ∀ a, m.read a = m'.read a) (x : Nat) : Memory.lookup m.cells x = Memory.lookup m'.cells x := by
  by_cases hx : x < m.len
  · have hx' : x < m'.len := hlen ▸ hx
    simpa only [read_of_lt hx, read_of_lt hx', Option.some.injEq] using hread x
  · rw [lookup_of_ge (not_lt.mp hx) h, lookup_of_ge (hlen ▸ not_lt.mp hx) h']

end CanonicalForm

/-! ### The obligation -/

/-- Settles O37: the cells give the same everywhere (`lookup_eq_of_read_eq`), so they are the same list
(`cells_eq_of_lookup_eq`). -/
theorem canonicalStoresAreEqual : Obligations.CanonicalStoresAreEqual := by
  rintro ⟨cells, len⟩ ⟨cells', len'⟩ h h' hlen hread
  obtain rfl : len = len' := hlen
  exact congrArg (Memory.mk · len) (cells_eq_of_lookup_eq h h' (lookup_eq_of_read_eq h h' rfl hread))

end Sys2Proof.Machine

/-! ## Proofs: reset (70_reset_and_hazards.md) -/

namespace Sys2Proof.Machine

/-- R21, R280: every register is 0 at reset, whatever the width of `pc`. -/
@[simp] theorem resetAt_reg (pcBits : Nat) (k : Fin nregs) : (State.resetAt pcBits).reg k = 0 :=
  Vector.getElem_replicate k.isLt

/-- Settles O43: OUT is a register's value (R32), a store of length 0 has no byte, and a block at the end of an empty
program completes by O9. -/
theorem resetState : Obligations.ResetState := by
  have hstep := completionChangesNothing State.reset rfl (Nat.zero_le _)
  exact ⟨resetAt_reg 32, rfl, rfl, rfl, rfl, resetAt_reg 32 _, rfl, rfl, rfl,
    fun _ => ⟨read_of_ge (Nat.zero_le _), read_of_ge (Nat.zero_le _)⟩, hstep⟩

end Sys2Proof.Machine
